-- ==== Sys2Proof/Word.lean ====
section
/-! DEFINITION. The machine's words (rules R4, R7, R8 of spec/00_scope.md).

Addition, subtraction and exclusive or of two words are BitVec's own `+`, `-` and `^^^`: unsigned, with silent
wraparound modulo 2^64, never trapping or saturating (rules R8 and R101). -/

namespace Sys2Proof

/-- A 64-bit word, bit 0 least significant (rules R4 and R7). A beat of the data port is a word too (rule R66). -/
abbrev Word := BitVec 64

/-- One byte of a payload (rule R10). -/
abbrev Byte := BitVec 8

/-- The 16-bit header of a command (rule R61). -/
abbrev Header := BitVec 16

end Sys2Proof
end

