-- ==== Sys2Proof/Machine/Operands.lean ====
section
/-! DEFINITION. Payload access: the one operand form the engine has (rules R10, R40, R41, R66, R122). A payload is a
sequence of bytes without an address (rule R43), and the only access width is the 64-bit word (rule R42). -/

namespace Sys2Proof.Machine

/-- Byte `k` of a word, `w[8k+7:8k]`: byte 0 is the least significant one (rules R7 and R40). -/
def byteOf (w : Word) (k : Nat) : Byte := w.extractLsb' (8 * k) 8

/-- `MemRead(off, 8)`: the little-endian value of eight payload bytes (rules R10 and R40). Lanes past the end of the
payload read as 0; only the beat of a ragged payload has such lanes, and they are ignored (rule R66). -/
def memRead (p : List Byte) (off : Nat) : Word :=
  p.getD (off + 7) 0 ++ p.getD (off + 6) 0 ++ p.getD (off + 5) 0 ++ p.getD (off + 4) 0
    ++ p.getD (off + 3) 0 ++ p.getD (off + 2) 0 ++ p.getD (off + 1) 0 ++ p.getD off 0

/-- The eight bytes that `MemWrite(off, 8, w)` puts at `off`, first byte first (rules R10 and R40). -/
def wordBytes (w : Word) : List Byte := (List.range 8).map (byteOf w)

/-- Payload words 0..n-1: word i is `MemRead(8*i, 8)` (rules R41 and R122). -/
def loadWords (n : Nat) (p : List Byte) : List Word := (List.range n).map fun i => memRead p (8 * i)

/-- The output payload made by `MemWrite(8*i, 8, ws[i])` for every i in turn (rules R41 and R122). -/
def storeWords (ws : List Word) : List Byte := ws.flatMap wordBytes

/-- How many beats carry a payload of `len` bytes: `ceil(len / 8)` (rule R66). -/
def beatCount (len : Nat) : Nat := (len + 7) / 8

/-- The beats that carry a payload: beat b holds payload bytes 8b..8b+7 (rule R66). -/
def packBeats (p : List Byte) : List Word := loadWords (beatCount p.length) p

/-- The payload of `len` bytes that beats carry: the lanes past the end are ignored (rule R66). -/
def unpackBeats (len : Nat) (beats : List Word) : List Byte := (storeWords beats).take len

end Sys2Proof.Machine
end

