-- ==== Sys2Proof/Config.lean ====
section
/-! DEFINITION. What is fixed when an instance is made (rules R4, R5, R34), and the values the spec leaves free. -/

namespace Sys2Proof

/-- The source's CipherVariant, "a closed enumeration {Threefish256, Threefish512, Threefish1024}" (rule R34). -/
inductive Variant where
  | tf256
  | tf512
  | tf1024
deriving DecidableEq, Repr

/-- The parameter N: words in a block and in a key (rules R4 and R34). -/
def Variant.words : Variant → Nat
  | .tf256 => 4
  | .tf512 => 8
  | .tf1024 => 16

namespace Config

/-- The variant of the instance that `State.reset` describes. The spec has three kinds of instance and one rule set
generic over N (rule R5), and names no default: DESIGN CHOICE, log entry 1. `State.resetOf` gives the other two, and
no statement of the package rests on this choice. -/
def instanceVariant : Variant := .tf256

/-- FREE VALUE: what working register `index` holds on the `occasion`-th occasion on which the spec leaves the working
registers unspecified (rules R24 and R190; U8 of spec/93_implementation_defined.md: "any value"). Log entry 2. -/
opaque freeWord : (occasion index : Nat) → Word

/-- FREE VALUE: the round index on such an occasion, before it is brought into its range 0..NR (rules R20 and R25). Log
entry 2. -/
opaque freeIndex : (occasion : Nat) → Nat

/-- FREE VALUE: the OPEN latencies of rule R200, as one constant of an implementation. Its arguments are all that rule
R196 lets the time from header to complete response depend on: the command and its `len` (both are in the header) and
N. Log entry 3. -/
opaque latency : Header → Variant → Nat

end Config
end Sys2Proof
end

