-- ==== Sys2Proof/Syntax.lean ====
section
/-! DEFINITION. The five commands of rule R62 (spec/30_encoding.md), one constructor per row of the opcode table.

A command is a header and an input payload of exactly `len` bytes (rule R60), so a term holds the payload, and the
header's `len` field is the payload's length. -/

namespace Sys2Proof

/-- A decoded command. `tp` is the header bit "tweak present", which only SETTWEAK has (rules R61 and R64). Every
command takes a payload, also one whose valid payload is empty: a length that is not the valid one is a legal
encoding, answered with a status (rule R65). -/
inductive Instr where
  | setkey (payload : List Byte)
  | settweak (tp : Bool) (payload : List Byte)
  | encrypt (payload : List Byte)
  | decrypt (payload : List Byte)
  | blksize (payload : List Byte)
deriving DecidableEq, Repr

/-- The input payload `IN` of a command (rule R10). -/
def Instr.payload : Instr → List Byte
  | .setkey p => p
  | .settweak _ p => p
  | .encrypt p => p
  | .decrypt p => p
  | .blksize p => p

/-- The header bit `tp` of a command: 0 for every command but SETTWEAK (rule R61). -/
def Instr.tp : Instr → Bool
  | .setkey _ => false
  | .settweak tp _ => tp
  | .encrypt _ => false
  | .decrypt _ => false
  | .blksize _ => false

end Sys2Proof
end

