-- ==== Sys2Proof/WellFormed.lean ====
section
/-! DEFINITION. Which terms of `Instr` a header can spell. The `len` field has 8 bits, 0..255 bytes (rules R61 and R63 of
spec/30_encoding.md): "Lengths above 255 bytes cannot be spelled". Nothing else restricts a command: whether `len` is
the length the command wants is not a matter of its encoding (rule R65). -/

namespace Sys2Proof

/-- The payload's length fits the header's `len` field (rule R61). -/
def payloadFits (p : List Byte) : Bool := decide (p.length ≤ 255)

/-- The command can be spelled by a header. -/
def WellFormed : Instr → Bool
  | .setkey p => payloadFits p
  | .settweak _ p => payloadFits p
  | .encrypt p => payloadFits p
  | .decrypt p => payloadFits p
  | .blksize p => payloadFits p

end Sys2Proof
end

