-- ==== Sys2Proof/Decode.lean ====
section
/-! DEFINITION. What the host presents at the command port, the decoder and the encoder (spec/30_encoding.md).

The engine fetches nothing from a memory (rules R25 and R30). A command reaches it as a header and then
`ceil(len / 8)` beats (rules R60 and R66); the reset event is no command and has no header (rules R71 and R190). -/

namespace Sys2Proof

open Sys2Proof.Machine (beatCount packBeats unpackBeats)

/-- One thing the host does at the port (rule R201): present a header, present a beat of payload, reset. -/
inductive PortEvent where
  | header (h : Header)
  | beat (w : Word)
  | reset
deriving DecidableEq, Repr

/-- The five operations of rule R62. -/
inductive Opcode where
  | setkey
  | settweak
  | encrypt
  | decrypt
  | blksize
deriving DecidableEq, Repr

/-- Why a header is illegal: the three grounds of rule R65. -/
inductive IllegalHeader where
  | reservedOp
  | reservedBits
  | tweakBit
deriving DecidableEq, Repr

/-- Field `op`, bits 15:12 (rule R61). -/
def opField (h : Header) : BitVec 4 := h.extractLsb' 12 4

/-- Field `rsv`, bits 11:9 (rule R61). -/
def rsvField (h : Header) : BitVec 3 := h.extractLsb' 9 3

/-- Field `tp`, bit 8 (rule R61). -/
def tpField (h : Header) : Bool := h.getLsbD 8

/-- Field `len`, bits 7:0: the payload's length in bytes, unsigned (rules R61 and R63). -/
def lenField (h : Header) : Nat := (h.extractLsb' 0 8).toNat

/-- The operation codes of rule R62. -/
def Opcode.code : Opcode → BitVec 4
  | .setkey => 0x1
  | .settweak => 0x2
  | .encrypt => 0x3
  | .decrypt => 0x4
  | .blksize => 0x5

/-- The operation an `op` field spells; 0 and 6..15 are reserved (rule R62). -/
def opcodeOf (op : BitVec 4) : Option Opcode :=
  if op = 0x1 then some .setkey
  else if op = 0x2 then some .settweak
  else if op = 0x3 then some .encrypt
  else if op = 0x4 then some .decrypt
  else if op = 0x5 then some .blksize
  else none

/-- A row of rule R62's table: a header `h` spells the operation when `h &&& mask = pattern`. -/
structure OpRow where
  opcode : Opcode
  pattern : Header
  mask : Header
deriving DecidableEq, Repr

/-- The header patterns of rule R62. The decoder follows rule R69 and not this table; that the two agree is stated. -/
def opTable : List OpRow :=
  [⟨.setkey, 0x1000, 0xFF00⟩, ⟨.settweak, 0x2000, 0xFE00⟩, ⟨.encrypt, 0x3000, 0xFF00⟩,
   ⟨.decrypt, 0x4000, 0xFF00⟩, ⟨.blksize, 0x5000, 0xFF00⟩]

/-- "A header `h` spells the command of a row when `(h & mask) == match`" (rule R62). -/
def OpRow.spells (r : OpRow) (h : Header) : Bool := h &&& r.mask == r.pattern

/-- The class of a header (rules R65 and R69): illegal on one of three grounds, or an operation. Total on all headers. -/
def decodeHeader (h : Header) : Except IllegalHeader Opcode :=
  match opcodeOf (opField h) with
  | none => .error .reservedOp
  | some o =>
    if rsvField h ≠ 0 then .error .reservedBits
    else if tpField h = true ∧ o ≠ .settweak then .error .tweakBit
    else .ok o

/-- The command an operation makes of a header's `tp` bit and a payload. -/
def Opcode.command : Opcode → Bool → List Byte → Instr
  | .setkey, _, p => .setkey p
  | .settweak, tp, p => .settweak tp p
  | .encrypt, _, p => .encrypt p
  | .decrypt, _, p => .decrypt p
  | .blksize, _, p => .blksize p

/-- Decoding a header with the payload that came with it. `len` is not looked at here: it is "checked by the command's
own rule" (rule R69). -/
def decode (h : Header) (payload : List Byte) : Except IllegalHeader Instr :=
  match decodeHeader h with
  | .error e => .error e
  | .ok o => .ok (o.command (tpField h) payload)

/-- What comes of taking a number of payload beats from the port. -/
inductive BeatsTaken where
  | complete (beats : List Word) (rest : List PortEvent)
  | waiting
  | reset (rest : List PortEvent)
  | overlapped
deriving DecidableEq, Repr

/-- Takes `n` payload beats. A reset in their midst abandons the command (rules R190 and R192); a header in their midst
is the overlapped presentation of rules R48 and R194. -/
def takeBeats : Nat → List PortEvent → BeatsTaken
  | 0, es => .complete [] es
  | _ + 1, [] => .waiting
  | _ + 1, .reset :: es => .reset es
  | _ + 1, .header _ :: _ => .overlapped
  | n + 1, .beat w :: es =>
    match takeBeats n es with
    | .complete ws rest => .complete (w :: ws) rest
    | .waiting => .waiting
    | .reset rest => .reset rest
    | .overlapped => .overlapped

/-- What stands at the front of the port. -/
inductive Fetched where
  /-- no whole command has been presented yet -/
  | waiting
  /-- a legal command, its payload taken (rule R60) -/
  | command (i : Instr) (rest : List PortEvent)
  /-- an illegal header, its payload taken and discarded (rule R65) -/
  | illegal (why : IllegalHeader) (rest : List PortEvent)
  /-- the reset event, which abandons a command whose payload is not complete (rule R190) -/
  | reset (rest : List PortEvent)
  /-- a header presented while a command is in progress (rules R48 and R194) -/
  | overlapped
  /-- a payload beat that belongs to no command -/
  | strayBeat
deriving DecidableEq, Repr

/-- Takes the next command from the port: its length is known from the header alone (rule R72), and the payload of a
failing command is taken too, "so that the next header is found where the host put it" (rule R166). -/
def fetch : List PortEvent → Fetched
  | [] => .waiting
  | .reset :: es => .reset es
  | .beat _ :: _ => .strayBeat
  | .header h :: es =>
    match takeBeats (beatCount (lenField h)) es with
    | .waiting => .waiting
    | .reset rest => .reset rest
    | .overlapped => .overlapped
    | .complete beats rest =>
      match decode h (unpackBeats (lenField h) beats) with
      | .error why => .illegal why rest
      | .ok i => .command i rest

/-- The operation of a command. -/
def Instr.opcode : Instr → Opcode
  | .setkey _ => .setkey
  | .settweak _ _ => .settweak
  | .encrypt _ => .encrypt
  | .decrypt _ => .decrypt
  | .blksize _ => .blksize

/-- A header written from its fields, `rsv` zero (rule R61). -/
def headerWord (op : BitVec 4) (tp : Bool) (len : BitVec 8) : Header :=
  op ++ (0 : BitVec 3) ++ BitVec.ofBool tp ++ len

/-- The part of a payload that the host presents. A payload of at most 255 bytes is presented whole (rule R61). Rule R63:
"Lengths above 255 bytes cannot be spelled; every such key is invalid anyway and the host reports `InvalidKeySize` itself
or spells any invalid length (for example `len = 255`)". DESIGN CHOICE among these, log entry 17: the host spells
`len = 255` and presents the first 255 bytes, for a key and likewise for any other payload. -/
def spelled (payload : List Byte) : List Byte := payload.take 255

/-- The header of a command (rules R61 and R62). Of a command that no header can spell it is the header the host presents
in its stead, with `len = 255`: DESIGN CHOICE, log entry 17. -/
def headerOf (i : Instr) : Header :=
  headerWord i.opcode.code i.tp (BitVec.ofNat 8 (spelled i.payload).length)

/-- What the host presents for a header, as written, and a payload (rules R60 and R66; `RAW` of rule R71). -/
def presentRaw (h : Header) (payload : List Byte) : List PortEvent :=
  .header h :: (packBeats payload).map .beat

/-- The encoder: what the host presents for a command (rules R60 to R62); for one that no header can spell, the command
with `len = 255` that stands in its stead (DESIGN CHOICE, log entry 17). -/
def encode (i : Instr) : List PortEvent := presentRaw (headerOf i) (spelled i.payload)

/-- `n` beats of 64 bits each, the first from the low bits. -/
def tableBeats : Nat → Nat → List PortEvent
  | 0, _ => []
  | n + 1, bits => .beat (BitVec.ofNat 64 bits) :: tableBeats n (bits / 2 ^ 64)

/-- The command whose bits are `w % 2^nbits`, numbered as the opcode table numbers them: bits 15:0 are the header and
the payload's beats follow, 64 bits each. Bits above `nbits` are 0. -/
def tableCommand (nbits w : Nat) : List PortEvent :=
  let bits := w % 2 ^ nbits
  let h : Header := BitVec.ofNat 16 bits
  .header h :: tableBeats (beatCount (lenField h)) (bits / 2 ^ 16)

/-- The instruction the decoder reads from a word of the opcode table; none where it refuses. -/
def decodeTableWord (nbits w : Nat) : Option Instr :=
  match fetch (tableCommand nbits w) with
  | .command i _ => some i
  | .waiting => none
  | .illegal _ _ => none
  | .reset _ => none
  | .overlapped => none
  | .strayBeat => none

end Sys2Proof
end

