-- ==== Sys2Proof/Machine/State.lean ====
section
/-! DEFINITION. The state of one engine instance (spec/10_state.md), with its port, and the state after reset. -/

namespace Sys2Proof.Machine

/-- The status of a response (rule R68). -/
inductive Status where
  | ok
  | invalidKeySize
  | precondition
  | illegalCommand
deriving DecidableEq, Repr

/-- The response to one command: its status and its output payload (rules R60 and R67). -/
structure Response where
  status : Status
  payload : List Byte
deriving DecidableEq, Repr

/-- The register file `ET[0..2]` (rules R20 and R22). -/
structure ExpandedTweak where
  t0 : Word
  t1 : Word
  t2 : Word
deriving DecidableEq, Repr

/-- One engine instance and its port. -/
structure State where
  /-- The instance's parameter N: a constant of the instance, which no command or reset changes (rules R5, R34, R190). -/
  variant : Variant
  /-- The register file `EK[0..N]`: the N key words, then the parity word (rules R20 and R21). -/
  ek : List Word
  /-- The register file `ET[0..2]` (rules R20 and R22). -/
  et : ExpandedTweak
  /-- The working registers `V[0..N-1]`, live only inside one ENCRYPT or DECRYPT (rules R20 and R24). -/
  v : List Word
  /-- The round index `d`, 0..NR, live only inside one ENCRYPT or DECRYPT (rules R20 and R25). -/
  d : Nat
  /-- THE HOST'S: what the host will present at the port, first thing first (rules R60, R199, R201). Log entry 4. -/
  port : List PortEvent
  /-- THE HOST'S: the responses delivered so far, oldest first (rules R67 and R199). The engine keeps no copy of a
  status and never reads this (rules R164 and R167). Log entry 5. -/
  responses : List Response
  /-- THE MODEL'S OWN: how many times the spec has left `V` and `d` unspecified so far; numbers the free values. Log
  entry 2. -/
  occasions : Nat
deriving DecidableEq, Repr

/-- Why a step stops. -/
inductive Fault where
  /-- Raised by fetching at the port: a header was presented while a command still lacked payload beats. Rules R48 and
  R194: "A model gives an overlapping presentation no step". SAFE: the model stops where the spec gives no outcome. -/
  | overlappedCommand
  /-- Raised by fetching at the port: a payload beat was presented that belongs to no command. The spec says only that
  a command begins with its header (rule R60). SAFE: the model stops where the spec gives no outcome. -/
  | strayBeat
  /-- Raised by `Safety.checkedStep` only, never by `step`: the step's response has the status Precondition, which rule
  R174 calls a fault of the run. SAFE. -/
  | precondition
  /-- Raised by `Safety.checkedStep` only, never by `step`: the step's response has the status IllegalCommand, which rule
  R174 calls a fault of the run. SAFE. -/
  | illegalCommand
deriving DecidableEq, Repr

/-- Why an instruction has no meaning. -/
inductive Refusal where
  /-- Raised by an arm of exec whose instruction has no meaning yet. SAFE. No arm raises it: every row of the opcode
  table is modelled. -/
  | notModelled (mnemonic : String)
deriving DecidableEq, Repr

/-- An instance of the given variant right after reset (rules R31 and R190): every word of `EK`, the parity word too, and
of `ET` is zero. `V` and `d` are unspecified after reset; zero is the model's DESIGN CHOICE (log entry 2). The port has
nothing presented and no response has been given. -/
def State.resetOf (variant : Variant) : State :=
  { variant := variant
    ek := List.replicate (variant.words + 1) 0
    et := ⟨0, 0, 0⟩
    v := List.replicate variant.words 0
    d := 0
    port := []
    responses := []
    occasions := 0 }

/-- The machine right after reset: an instance of the variant `Config.instanceVariant`. -/
def State.reset : State := State.resetOf Config.instanceVariant

end Sys2Proof.Machine
end

