-- ==== Sys2Proof/Machine/Flags.lean ====
section
/-! DEFINITION. What a command reports. The engine has no flags and no condition codes (rule R26); the status of its
response is all the host learns (rule R164). Every check is made on the header, before the first payload word is used
(rule R173), so a status is a function of the variant and the header's fields alone. -/

namespace Sys2Proof.Machine

/-- The 4-bit code of a status on the port (rule R68). Codes 4..15 are never produced. -/
def Status.code : Status → BitVec 4
  | .ok => 0x0
  | .invalidKeySize => 0x1
  | .precondition => 0x2
  | .illegalCommand => 0x3

/-- Block and key size in bytes, `8*N` (rule R4). -/
abbrev blockBytes (v : Variant) : Nat := 8 * v.words

/-- SETKEY: `InvalidKeySize` exactly when `len != 8*N`, also for a length another variant takes (rules R81 and R161). -/
def setkeyStatus (v : Variant) (len : Nat) : Status :=
  if len = blockBytes v then .ok else .invalidKeySize

/-- SETTWEAK: `Precondition` when (`tp`, `len`) is neither (1, 16) nor (0, 0) (rules R91 and R162). -/
def settweakStatus (tp : Bool) (len : Nat) : Status :=
  if (tp = true ∧ len = 16) ∨ (tp = false ∧ len = 0) then .ok else .precondition

/-- ENCRYPT and DECRYPT: `Precondition` when `len != 8*N` (rules R120, R121 and R162). -/
def blockStatus (v : Variant) (len : Nat) : Status :=
  if len = blockBytes v then .ok else .precondition

/-- BLKSIZE: `Precondition` when `len != 0` (rules R144 and R162). -/
def blksizeStatus (len : Nat) : Status := if len = 0 then .ok else .precondition

/-- The status a decoded command ends with on an instance of the given variant (rule R160). -/
def statusOf (v : Variant) : Instr → Status
  | .setkey p => setkeyStatus v p.length
  | .settweak tp p => settweakStatus tp p.length
  | .encrypt p => blockStatus v p.length
  | .decrypt p => blockStatus v p.length
  | .blksize p => blksizeStatus p.length

/-- The output payload of a response in beats: packed as rule R66 packs an input payload (rule R67). -/
def Response.beats (r : Response) : List Word := packBeats r.payload

/-- One thing the engine does at the port: give a status code, give a beat of output payload (rules R60 and R67). -/
inductive PortOutput where
  | status (code : BitVec 4)
  | beat (w : Word)
deriving DecidableEq, Repr

/-- What the host sees at the port for a response: "the 4-bit status of rule R68 and then the output payload in beats"
(rule R67). -/
def Response.output (r : Response) : List PortOutput := .status r.status.code :: r.beats.map .beat

/-- Everything the engine has given at the port so far, first thing first: one response after another (rule R67). -/
def State.output (s : State) : List PortOutput := s.responses.flatMap Response.output

end Sys2Proof.Machine
end

