-- ==== Sys2Proof/Machine/Tables.lean ====
section
/-! DEFINITION. The constants of an instance: "fixed data, not derived" (rules R4, R103, R104). Each table stands in
this one place (D21 of spec/92_eei_decisions.md). The rotation amounts, `PERM[8]` and `PERM[16]` are the spec's, which
supplies them from general knowledge (G1 and G2 of spec/93_implementation_defined.md). -/

namespace Sys2Proof.Machine

/-- The key-schedule constant `C240` (rules R4 and R80). -/
def keyScheduleConst : Word := 0x1BD11BDAA9FC1A22

/-- The round count `NR` (rules R4 and R100). -/
def roundCount : Variant → Nat
  | .tf256 => 72
  | .tf512 => 72
  | .tf1024 => 80

/-- The rotation table `ROT[N]`: row r, one amount per word pair (rule R103). -/
def rotTable : Variant → List (List Nat)
  | .tf256 =>
    [[14, 16], [52, 57], [23, 40], [5, 37], [25, 33], [46, 12], [58, 22], [32, 32]]
  | .tf512 =>
    [[46, 36, 19, 37], [33, 27, 14, 42], [17, 49, 36, 39], [44, 9, 54, 56],
     [39, 30, 34, 24], [13, 50, 10, 17], [25, 29, 39, 43], [8, 35, 56, 22]]
  | .tf1024 =>
    [[24, 13, 8, 47, 8, 17, 22, 37], [38, 19, 10, 55, 49, 18, 23, 52],
     [33, 4, 51, 13, 34, 41, 59, 17], [5, 20, 48, 41, 47, 28, 16, 25],
     [41, 9, 37, 31, 12, 47, 44, 30], [16, 34, 56, 51, 4, 53, 42, 41],
     [31, 44, 47, 46, 19, 42, 44, 25], [9, 48, 35, 52, 23, 31, 37, 20]]

/-- The row of `ROT[N]` in use in round d: rows are "cycled by `d mod 8`" (rules R25 and R103). -/
def rotRow (v : Variant) (d : Nat) : List Nat := (rotTable v).getD (d % 8) []

/-- The permutation table `PERM[N]`: entry i is the source index of destination i (rule R104). -/
def perm : Variant → List Nat
  | .tf256 => [0, 3, 2, 1]
  | .tf512 => [2, 1, 4, 7, 6, 5, 0, 3]
  | .tf1024 => [0, 9, 2, 13, 6, 11, 4, 15, 10, 7, 12, 3, 14, 5, 8, 1]

/-- The inverse table `INVPERM[N]` (rule R104). -/
def invPerm : Variant → List Nat
  | .tf256 => [0, 3, 2, 1]
  | .tf512 => [6, 1, 0, 7, 2, 5, 4, 3]
  | .tf1024 => [0, 15, 2, 11, 6, 13, 4, 9, 14, 1, 8, 5, 10, 3, 12, 7]

end Sys2Proof.Machine
end

