-- ==== Sys2Proof/Machine/Ops.lean ====
section
/-! DEFINITION. The named operations on the state that the commands and the port share: responses, errors ("exceptions"
of spec/60_exceptions.md), the two register files, and the reset event. -/

namespace Sys2Proof.Machine

/-- Delivers the response to a command (rule R67). -/
def State.respond (s : State) (status : Status) (payload : List Byte) : State :=
  { s with responses := s.responses ++ [⟨status, payload⟩] }

/-- TAKING AN EXCEPTION, `raise <Status>` (rules R11 and R166): nothing of `EK` and `ET` is written, nothing is saved, no
mode changes and control goes nowhere; the response carries the status and an empty payload, and the engine is ready
for the next command. The payload of the failing command has left the port already (`fetch`).

There is no return from an exception and nothing to restore (rule R168): the state `raise` gives is the state in which
the next command is taken. -/
def State.raise (s : State) (status : Status) : State := s.respond status []

/-- Runs a command under its status: a status other than `OK` is raised before anything is written (rule R173). -/
def underStatus (status : Status) (effect : State → State) (s : State) :
    Host.Outcome State Fault Refusal :=
  if status = .ok then .next (effect s) else .next (s.raise status)

/-- Writes all N+1 words of `EK` in one step (rule R21). -/
def State.setEk (s : State) (ek : List Word) : State := { s with ek := ek }

/-- Writes all three words of `ET` in one step (rule R22). -/
def State.setEt (s : State) (et : ExpandedTweak) : State := { s with et := et }

/-- Writes the working registers (rule R9). -/
def State.setV (s : State) (v : List Word) : State := { s with v := v }

/-- `d <- value` (rule R9). -/
def State.setD (s : State) (d : Nat) : State := { s with d := d }

/-- Leaves at the port what follows the command that was taken (rule R166). -/
def State.setPort (s : State) (port : List PortEvent) : State := { s with port := port }

/-- The working registers and the round index become unspecified: free values, of which only the shape is known, N words
and a number 0..NR (rules R20, R24, R25 and R190; "any value", U8 of spec/93_implementation_defined.md). Log entry 2. -/
def State.unspecifyWorking (s : State) : State :=
  { s with
    v := (List.range s.variant.words).map (Config.freeWord s.occasions)
    d := Config.freeIndex s.occasions % (roundCount s.variant + 1)
    occasions := s.occasions + 1 }

/-- The reset event (rules R31 and R190): `EK` and `ET` become zero, `V` and `d` unspecified, N stays, and no response is
produced. What the host did before and will do next (the responses, the port) is not the engine's to clear. -/
def State.resetEvent (s : State) : State :=
  ((s.setEk (List.replicate (s.variant.words + 1) 0)).setEt ⟨0, 0, 0⟩).unspecifyWorking

end Sys2Proof.Machine
end

