-- ==== Sys2Proof/Machine/KeySchedule.lean ====
section
/-! DEFINITION. The key schedule and the tweak schedule (spec/40_key_schedule.md, spec/41_tweak_schedule.md), and the
commands SETKEY and SETTWEAK. -/

namespace Sys2Proof.Machine

/-- `p = C240; for each key word: p = p ^ key[i]` (rule R80). -/
def parityWord (key : List Word) : Word := key.foldl (· ^^^ ·) keyScheduleConst

/-- `EXPAND_KEY(key)`: the key words, then the parity word (rule R80). -/
def expandKey (key : List Word) : List Word := key ++ [parityWord key]

/-- `EXPAND_TWEAK(tweak)`: the tweak words and their exclusive or; three zero words for the absent tweak (rule R90). -/
def expandTweak : Option (Word × Word) → ExpandedTweak
  | none => ⟨0, 0, 0⟩
  | some (t0, t1) => ⟨t0, t1, t0 ^^^ t1⟩

/-- The tweak a SETTWEAK payload gives: two words when `tp = 1`, absent when `tp = 0` (rules R64 and R91). -/
def tweakOf (tp : Bool) (payload : List Byte) : Option (Word × Word) :=
  if tp then some (memRead payload 0, memRead payload 8) else none

/-- SETKEY (rule R81). -/
def execSetkey (payload : List Byte) (s : State) : Host.Outcome State Fault Refusal :=
  underStatus (setkeyStatus s.variant payload.length)
    (fun s => (s.setEk (expandKey (loadWords s.variant.words payload))).respond .ok []) s

/-- SETTWEAK (rule R91). -/
def execSettweak (tp : Bool) (payload : List Byte) (s : State) : Host.Outcome State Fault Refusal :=
  underStatus (settweakStatus tp payload.length)
    (fun s => (s.setEt (expandTweak (tweakOf tp payload))).respond .ok []) s

end Sys2Proof.Machine
end

