-- ==== Sys2Proof/Machine/RoundEngine.lean ====
section
/-! DEFINITION. The round engine (spec/42_round_engine.md): its steps on words, the same steps on the state, the two block
functions, and the commands ENCRYPT and DECRYPT. -/

namespace Sys2Proof.Machine

/-- `rotl64(x, r)` (rules R8 and R102). -/
def rotl64 (x : Word) (r : Nat) : Word := (x <<< r) ||| (x >>> (64 - r))

/-- `rotr64(x, r)` (rules R8 and R102). -/
def rotr64 (x : Word) (r : Nat) : Word := (x >>> r) ||| (x <<< (64 - r))

/-- `ET[k mod 3]` (rules R30 and R105). -/
def ExpandedTweak.word (et : ExpandedTweak) (k : Nat) : Word :=
  if k % 3 = 0 then et.t0 else if k % 3 = 1 then et.t1 else et.t2

/-- What word i of subkey c has added to its key word: the tweak words on words N-3 and N-2 and the cycle index on word
N-1 (rule R105; the placement is C3's of spec/90_conflicts.md). -/
def subkeyAddend (n : Nat) (et : ExpandedTweak) (c i : Nat) : Word :=
  if i + 3 = n then et.word c
  else if i + 2 = n then et.word (c + 1)
  else if i + 1 = n then BitVec.ofNat 64 c
  else 0

/-- `SUBKEY(c)` for cycle index c (rule R105): `EK[(c + i) mod (N+1)]` for i = 0..N-1, with the three addends. -/
def subkey (v : Variant) (ek : List Word) (et : ExpandedTweak) (c : Nat) : List Word :=
  (List.range v.words).map fun i =>
    ek.getD ((c + i) % (v.words + 1)) 0 + subkeyAddend v.words et c i

/-- Each working word plus its subkey word, no carry between words (rule R106). -/
def addWords (ws ks : List Word) : List Word := List.zipWith (· + ·) ws ks

/-- Each working word minus its subkey word (rule R107). -/
def subWords (ws ks : List Word) : List Word := List.zipWith (· - ·) ws ks

/-- `MIX(e, o, r)`: the new odd word uses the new even word (rule R108). -/
def mixPair (e o : Word) (r : Nat) : Word × Word := (e + o, rotl64 o r ^^^ (e + o))

/-- `UNMIX(e', o', r)`: the even word uses the recovered odd word (rule R109). -/
def unmixPair (e o : Word) (r : Nat) : Word × Word := (e - rotr64 (e ^^^ o) r, rotr64 (e ^^^ o) r)

/-- MIX on every pair, pair j with amount j of the row (rule R110). -/
def mixWords : List Nat → List Word → List Word
  | r :: row, e :: o :: ws => (mixPair e o r).1 :: (mixPair e o r).2 :: mixWords row ws
  | _, ws => ws

/-- UNMIX on every pair, pair j with amount j of the row (rule R111). -/
def unmixWords : List Nat → List Word → List Word
  | r :: row, e :: o :: ws => (unmixPair e o r).1 :: (unmixPair e o r).2 :: unmixWords row ws
  | _, ws => ws

/-- Word i of the result is word `table[i]`; all reads see the old words (rule R112). -/
def permuteWords (table : List Nat) (ws : List Word) : List Word := table.map fun i => ws.getD i 0

/-- `SUBKEY(c)` of the instance's own `EK` and `ET`, at the time of use (rules R51 and R105). -/
def State.subkey (s : State) (c : Nat) : List Word := Machine.subkey s.variant s.ek s.et c

/-- `INJECT(c)` (rule R106). -/
def State.inject (s : State) (c : Nat) : State := s.setV (addWords s.v (s.subkey c))

/-- `UNINJECT(c)` (rule R107). -/
def State.uninject (s : State) (c : Nat) : State := s.setV (subWords s.v (s.subkey c))

/-- `MIXLAYER(d)` (rule R110). -/
def State.mixLayer (s : State) (d : Nat) : State := s.setV (mixWords (rotRow s.variant d) s.v)

/-- `UNMIXLAYER(d)` (rule R111). -/
def State.unmixLayer (s : State) (d : Nat) : State := s.setV (unmixWords (rotRow s.variant d) s.v)

/-- `PERMUTE` (rule R112). -/
def State.permute (s : State) : State := s.setV (permuteWords (perm s.variant) s.v)

/-- `UNPERMUTE`, written as the rule's "equivalently `V[i] <- V[INVPERM[N][i]]`" (rule R113). -/
def State.unpermute (s : State) : State := s.setV (permuteWords (invPerm s.variant) s.v)

/-- `ROUND(d)` (rule R114). -/
def State.round (s : State) (d : Nat) : State :=
  ((if d % 4 = 0 then s.inject (d / 4) else s).mixLayer d).permute

/-- `UNROUND(d)` (rule R115). -/
def State.unround (s : State) (d : Nat) : State :=
  if d % 4 = 0 then (s.unpermute.unmixLayer d).uninject (d / 4) else s.unpermute.unmixLayer d

/-- `n` turns of ENCRYPT_CORE's loop: `ROUND(d); d <- d + 1` (rule R116). -/
def State.rounds : Nat → State → State
  | 0, s => s
  | n + 1, s => State.rounds n ((s.round s.d).setD (s.d + 1))

/-- `n` turns of DECRYPT_CORE's loop: `d <- d - 1; UNROUND(d)` (rule R118). -/
def State.unrounds : Nat → State → State
  | 0, s => s
  | n + 1, s => State.unrounds n ((s.setD (s.d - 1)).unround (s.d - 1))

/-- `ENCRYPT_CORE` run on the state: the result stands in `V` (rule R116). The loop `while d < NR` from d = 0 turns NR
times. -/
def State.encryptCore (s : State) (block : List Word) : State :=
  (State.rounds (roundCount s.variant) ((s.setV block).setD 0)).inject (roundCount s.variant / 4)

/-- `DECRYPT_CORE` run on the state: the result stands in `V` (rule R118). The loop `while d > 0` from d = NR turns NR
times. -/
def State.decryptCore (s : State) (block : List Word) : State :=
  State.unrounds (roundCount s.variant)
    (((s.setV block).setD (roundCount s.variant)).uninject (roundCount s.variant / 4))

/-- Delivers the block that stands in `V`, word i at byte offset `8*i` (rule R122). Afterwards `V` and `d` are
unspecified (rules R24 and R199). -/
def State.deliverBlock (s : State) : State := (s.respond .ok (storeWords s.v)).unspecifyWorking

/-- ENCRYPT (rule R120). All N loads come before the first store (rules R44 and R122). -/
def execEncrypt (payload : List Byte) (s : State) : Host.Outcome State Fault Refusal :=
  underStatus (blockStatus s.variant payload.length)
    (fun s => (s.encryptCore (loadWords s.variant.words payload)).deliverBlock) s

/-- DECRYPT (rule R121). -/
def execDecrypt (payload : List Byte) (s : State) : Host.Outcome State Fault Refusal :=
  underStatus (blockStatus s.variant payload.length)
    (fun s => (s.decryptCore (loadWords s.variant.words payload)).deliverBlock) s

end Sys2Proof.Machine
end

