-- ==== Sys2Proof/Machine/Facade.lean ====
section
/-! DEFINITION. The facade (spec/43_facade.md): BLKSIZE, the choice of the variant, construction, and the pure block
functions of rule R100. -/

namespace Sys2Proof.Machine

/-- BLKSIZE: the block size in bytes, `8*N`, as one word (rule R144). -/
def execBlksize (payload : List Byte) (s : State) : Host.Outcome State Fault Refusal :=
  underStatus (blksizeStatus payload.length)
    (fun s => s.respond .ok (wordBytes (BitVec.ofNat 64 (blockBytes s.variant)))) s

/-- `SELECT_VARIANT(keylen_bytes)`; none stands for `InvalidKeySize` (rule R141). It runs outside an instance. -/
def selectVariant (keyBytes : Nat) : Option Variant :=
  if keyBytes = 32 then some .tf256
  else if keyBytes = 64 then some .tf512
  else if keyBytes = 128 then some .tf1024
  else none

/-- The payload of the SETTWEAK that construction presents: 16 bytes, or none (rules R42 and R64). That construction presents
one for the absent tweak too is a DESIGN CHOICE, log entry 19. -/
def tweakPayload : Option (Word × Word) → List Byte
  | none => []
  | some (t0, t1) => storeWords [t0, t1]

/-- Runs one more command if the last one gave a state. -/
def andThen (o : Host.Outcome State Fault Refusal) (f : State → Host.Outcome State Fault Refusal) :
    Host.Outcome State Fault Refusal :=
  match o with
  | .next s => f s
  | .fault r => .fault r
  | .refused r => .refused r

/-- `new(key, tweak)` (rule R142): choose N by the key's length, reset, SETKEY, SETTWEAK. For an absent tweak the rule
leaves open whether SETTWEAK none is presented "(or nothing: `ET` is already [0,0,0])". DESIGN CHOICE, log entry 19:
it is presented, so construction always gives two responses; `EK` and `ET` are the same either way. None stands for
`InvalidKeySize`: "no instance results". The instance it makes is one of the closed sum of rule R147, its tag the field
`variant`. -/
def newInstance (key : List Byte) (tweak : Option (Word × Word)) :
    Option (Host.Outcome State Fault Refusal) :=
  match selectVariant key.length with
  | none => none
  | some v =>
    some (andThen (execSetkey key (State.resetOf v)) (execSettweak tweak.isSome (tweakPayload tweak)))

/-- An instance that holds the given register files, to run the block functions on. -/
def State.holding (v : Variant) (ek : List Word) (et : ExpandedTweak) : State :=
  ((State.resetOf v).setEk ek).setEt et

/-- `ENCRYPT_CORE(EK, ET, block)` as the pure function of rule R100. -/
def encryptBlock (v : Variant) (ek : List Word) (et : ExpandedTweak) (block : List Word) : List Word :=
  ((State.holding v ek et).encryptCore block).v

/-- `DECRYPT_CORE(EK, ET, block)` as the pure function of rule R100. -/
def decryptBlock (v : Variant) (ek : List Word) (et : ExpandedTweak) (block : List Word) : List Word :=
  ((State.holding v ek et).decryptCore block).v

end Sys2Proof.Machine
end

