-- ==== Sys2Proof/Machine/Dispatch.lean ====
section
/-! DEFINITION. One arm per constructor of `Instr`: the semantics column of rule R62. -/

namespace Sys2Proof.Machine

def exec (i : Instr) (s : State) : Host.Outcome State Fault Refusal :=
  match i with
  | .setkey payload => Sys2Proof.Machine.execSetkey payload s
  | .settweak tp payload => Sys2Proof.Machine.execSettweak tp payload s
  | .encrypt payload => Sys2Proof.Machine.execEncrypt payload s
  | .decrypt payload => Sys2Proof.Machine.execDecrypt payload s
  | .blksize payload => Sys2Proof.Machine.execBlksize payload s

end Sys2Proof.Machine
end

