-- ==== Sys2Proof/Machine/Sequencer.lean ====
section
/-! DEFINITION. What the engine does with what stands at its port: one command at a time, each one indivisible step
(rule R47 of spec/20_memory.md). -/

namespace Sys2Proof.Machine

/-- One step on what was fetched. Waiting for the host changes nothing (log entry 6); an illegal header raises
`IllegalCommand` (rule R163); a presentation the spec gives no outcome is a fault (rules R48 and R194, log entry 7). -/
def perform (f : Fetched) (s : State) : Host.Outcome State Fault Refusal :=
  match f with
  | .waiting => .next s
  | .command i rest => exec i (s.setPort rest)
  | .illegal _ rest => .next ((s.setPort rest).raise .illegalCommand)
  | .reset rest => .next (s.setPort rest).resetEvent
  | .overlapped => .fault .overlappedCommand
  | .strayBeat => .fault .strayBeat

/-- Fetches at the port and performs what stands there. -/
def performNext (s : State) : Host.Outcome State Fault Refusal := perform (fetch s.port) s

/-- Presents events at the port ahead of everything else. -/
def State.present (s : State) (events : List PortEvent) : State := s.setPort (events ++ s.port)

end Sys2Proof.Machine
end

