-- ==== Sys2Proof/Machine/Step.lean ====
section
/-! DEFINITION. One step of the machine, and the placing of an instruction where the next step takes it. -/

namespace Sys2Proof.Machine

/-- One step: one command, or one reset, taken from the port and carried out whole (rule R47). -/
def step (s : State) : Host.Outcome State Fault Refusal := performNext s

/-- The command whose bits are `w`, presented at the port ahead of everything else: the next step takes exactly it (log
entry 8). -/
def State.withFetchWord (s : State) (nbits w : Nat) : State := s.present (tableCommand nbits w)

end Sys2Proof.Machine
end

