-- ==== Sys2Proof/Machine/Assembler.lean ====
section
/-! DEFINITION. The command sequences of rules R70 and R71 (spec/30_encoding.md): what each line presents at the port. A
word operand stands for its eight bytes in little-endian order, so the word form and the byte form of a command are one
command (rules R84 and R145). A key, tweak or block of more than 255 bytes is presented as `encode` presents it (rule R63,
log entry 17). -/

namespace Sys2Proof.Machine

/-- A line of a command sequence (rules R70 and R71). `settweak none` is SETTWEAK's form without a tweak; `newInstance`
is `NEW key` and `NEW key, t0, t1`. A key may be given as words or, in the lines whose names end in B, as bytes (rules
R84 and R140). `raw` is written with as many bytes as its header's low byte says (rule R71). -/
inductive AsmLine where
  | setkey (ws : List Word)
  | setkeyB (bs : List Byte)
  | settweak (tweak : Option (Word × Word))
  | encrypt (ws : List Word)
  | encryptB (bs : List Byte)
  | decrypt (ws : List Word)
  | decryptB (bs : List Byte)
  | blksize
  | reset
  | rekey (ws : List Word)
  | rekeyB (bs : List Byte)
  | newInstance (ws : List Word) (tweak : Option (Word × Word))
  | newInstanceB (bs : List Byte) (tweak : Option (Word × Word))
  | raw (h : Header) (bs : List Byte)
deriving DecidableEq, Repr

/-- The SETTWEAK of a tweak: header `0x2110` and 16 bytes, or header `0x2000` and none (rule R70). -/
def settweakCommand (tweak : Option (Word × Word)) : Instr :=
  .settweak tweak.isSome (tweakPayload tweak)

/-- What `NEW` presents to an instance of the given variant: RESET, SETKEY and, where a tweak is given, SETTWEAK (rule
R71). With a key whose length is not `8*N` it "ends with `InvalidKeySize` from its SETKEY and leaves the instance in the
reset state", so no SETTWEAK follows (log entry 18). `NEW key` presents no SETTWEAK, as rule R71 expands it; the function
`newInstance` of rule R142 does (log entry 19). -/
def newEvents (v : Variant) (key : List Byte) (tweak : Option (Word × Word)) : List PortEvent :=
  .reset :: (encode (.setkey key) ++
    if key.length = blockBytes v ∧ tweak.isSome then encode (settweakCommand tweak) else [])

/-- What a line presents at the port of an instance of the given variant (rules R70 and R71). Only `NEW` looks at the
variant. -/
def AsmLine.events (v : Variant) : AsmLine → List PortEvent
  | .setkey ws => encode (.setkey (storeWords ws))
  | .setkeyB bs => encode (.setkey bs)
  | .settweak tweak => encode (settweakCommand tweak)
  | .encrypt ws => encode (.encrypt (storeWords ws))
  | .encryptB bs => encode (.encrypt bs)
  | .decrypt ws => encode (.decrypt (storeWords ws))
  | .decryptB bs => encode (.decrypt bs)
  | .blksize => encode (.blksize [])
  | .reset => [.reset]
  | .rekey ws => encode (.setkey (storeWords ws))
  | .rekeyB bs => encode (.setkey bs)
  | .newInstance ws tweak => newEvents v (storeWords ws) tweak
  | .newInstanceB bs tweak => newEvents v bs tweak
  | .raw h bs => presentRaw h bs

/-- What a sequence of lines presents. -/
def assemble (v : Variant) (lines : List AsmLine) : List PortEvent := lines.flatMap (AsmLine.events v)

end Sys2Proof.Machine
end

