-- ==== Sys2Proof/Machine/Platform.lean ====
section
/-! DEFINITION. Several instances side by side (rules R32, R49 and R172): each has its own N, `EK` and `ET`, and they share
no mutable state, so a platform is a list of instances and a step of the platform is a step of one of them. -/

namespace Sys2Proof.Machine

/-- Several engine instances. -/
abbrev Platform := List State

/-- The outcome of a step of instance k, as an outcome of the platform; an index without an instance changes nothing. -/
def Platform.stepAt (p : Platform) (k : Nat) : Host.Outcome Platform Fault Refusal :=
  match p[k]? with
  | none => .next p
  | some s =>
    match step s with
    | .next t => .next (p.set k t)
    | .fault r => .fault r
    | .refused r => .refused r

end Sys2Proof.Machine
end

