-- ==== Sys2Proof/Machine/Schedule.lean ====
section
/-! DEFINITION. The fixed schedule of ENCRYPT and DECRYPT, written out (rules R116 to R119). It is a function of the
variant alone: "the sequence of values of `d` is the same for every key, tweak and block" (rule R25). The meanings run
the loops of `RoundEngine`; that a loop and its schedule agree is stated. -/

namespace Sys2Proof.Machine

/-- One thing the engine does to the working words. -/
inductive EngineStep where
  | inject (c : Nat)
  | mixLayer (d : Nat)
  | permute
deriving DecidableEq, Repr

/-- Doing it (rules R106, R110, R112). -/
def EngineStep.apply : EngineStep → State → State
  | .inject c, s => s.inject c
  | .mixLayer d, s => s.mixLayer d
  | .permute, s => s.permute

/-- Undoing it (rules R107, R111, R113). -/
def EngineStep.undo : EngineStep → State → State
  | .inject c, s => s.uninject c
  | .mixLayer d, s => s.unmixLayer d
  | .permute, s => s.unpermute

/-- Four rounds, d = 4c .. 4c+3, each `MIXLAYER(d)` and then `PERMUTE` (rule R116). -/
def cycleRounds (c : Nat) : List EngineStep :=
  (List.range 4).flatMap fun r => [.mixLayer (4 * c + r), .permute]

/-- "`INJECT(0)`, 4 rounds, `INJECT(1)`, 4 rounds, ..., `INJECT(NR/4 - 1)`, 4 rounds, `INJECT(NR/4)`" (rule R116). -/
def encryptSchedule (v : Variant) : List EngineStep :=
  ((List.range (roundCount v / 4)).flatMap fun c => .inject c :: cycleRounds c)
    ++ [.inject (roundCount v / 4)]

/-- The cycle indices a schedule injects, in order (rule R117). -/
def injections : List EngineStep → List Nat
  | [] => []
  | .inject c :: es => c :: injections es
  | .mixLayer _ :: es => injections es
  | .permute :: es => injections es

end Sys2Proof.Machine
end

