-- ==== Sys2Proof/Machine/Timing.lean ====
section
/-! DEFINITION. The time of a command (rules R196 and R200). The model's steps have no time; what the spec says of it is
that each latency is a finite constant of the implementation, which may depend on the command, on N and on `len` and on
nothing else. The free value `Config.latency` is that, and no rule of the functional model uses it. -/

namespace Sys2Proof.Machine

/-- The time from a command's header to its complete response, on an instance of the given variant: `T_SETKEY(N)`,
`T_SETTWEAK`, `T_ENCRYPT(N)`, `T_DECRYPT(N)`, `T_BLKSIZE` (rule R200) and, by rule R196, that of any other length. -/
def responseTime (v : Variant) (i : Instr) : Nat := Config.latency (headerOf i) v

end Sys2Proof.Machine
end

