-- ==== Sys2Proof/Safety.lean ====
section
/-! DEFINITION. What a claim about a run may speak of: which runs have faulted (rules R174 and R199), which states a run
can reach (rule R33), and what a step lets the host see. -/

namespace Sys2Proof.Safety

open Sys2Proof.Machine

/-- The fault a status stands for: "`Precondition` and `IllegalCommand` are faults", while `InvalidKeySize` "is an
ordinary outcome" (rule R174). -/
def faultOf : Status → Option Fault
  | .ok => none
  | .invalidKeySize => none
  | .precondition => some .precondition
  | .illegalCommand => some .illegalCommand

/-- The responses that came between two states of a run. -/
def newResponses (s t : State) : List Response := t.responses.drop s.responses.length

/-- The step with which claims about runs are stated: `step`, but for the responses that rule R174 calls faults, after
which nothing is proved. -/
def checkedStep (s : State) : Host.Outcome State Fault Refusal :=
  match step s with
  | .next t =>
    match (newResponses s t).findSome? fun r => faultOf r.status with
    | some f => .fault f
    | none => .next t
  | .fault r => .fault r
  | .refused r => .refused r

/-- "A run that contains a `Precondition` or `IllegalCommand` response has faulted" (rule R199). -/
def faulted (s : State) : Bool := s.responses.any fun r => (faultOf r.status).isSome

/-- `EK` satisfies the parity law of rules R21 and R83. By rule R33 this is what "a SETKEY has succeeded since reset" can
be read off. -/
def keyed (s : State) : Prop :=
  s.ek.getD s.variant.words 0 = parityWord (s.ek.take s.variant.words)

/-- Every word of `EK` is zero, as reset leaves it (rule R31). -/
def unkeyed (s : State) : Prop := s.ek = List.replicate (s.variant.words + 1) 0

/-- The shape of the state (rule R20): N+1 words in `EK`, N in `V`, `d` in 0..NR. -/
def shaped (s : State) : Prop :=
  s.ek.length = s.variant.words + 1 ∧ s.v.length = s.variant.words ∧ s.d ≤ roundCount s.variant

/-- What holds in every state a run can reach (rules R20, R33 and R93). -/
def invariant (s : State) : Prop :=
  shaped s ∧ s.et.t2 = s.et.t0 ^^^ s.et.t1 ∧ (unkeyed s ∨ keyed s)

/-- Two states agree in all that may matter to what follows: N, `EK`, `ET` and what the host will present. They may
differ in the working registers, the round index, the free values and the responses already given. -/
def agree (s t : State) : Prop :=
  s.variant = t.variant ∧ s.ek = t.ek ∧ s.et = t.et ∧ s.port = t.port

/-- A header is illegal, in rule R65's own terms and numbers: `op` is 0 or 6..15, or `rsv` is not 0, or `tp` is 1 with an
`op` other than 2. -/
def illegal (h : Header) : Prop :=
  h.toNat / 2 ^ 12 = 0 ∨ 6 ≤ h.toNat / 2 ^ 12 ∨ h.toNat / 2 ^ 9 % 8 ≠ 0
    ∨ (h.toNat / 2 ^ 8 % 2 = 1 ∧ h.toNat / 2 ^ 12 ≠ 2)

/-- The status of a header and a payload presented together: first the header's legality, then the length check of the
command (rule R165). -/
def presentedStatus (v : Variant) (h : Header) (payload : List Byte) : Status :=
  match decode h payload with
  | .error _ => .illegalCommand
  | .ok i => statusOf v i

/-- The unsigned little-endian value of eight payload bytes: "sum over k of `IN[off+k] * 2^(8k)`" (rule R10). -/
def littleEndian (p : List Byte) (off : Nat) : Nat :=
  ((List.range 8).map fun k => (p.getD (off + k) 0).toNat * 2 ^ (8 * k)).sum

/-- The exclusive or of all words of a key (rules R80 and R83). -/
def xorAll : List Word → Word
  | [] => 0
  | w :: ws => w ^^^ xorAll ws

/-- The commands that change no persistent state: ENCRYPT, DECRYPT and BLKSIZE (rules R27 and R49). -/
def readOnly : Instr → Bool
  | .setkey _ => false
  | .settweak _ _ => false
  | .encrypt _ => true
  | .decrypt _ => true
  | .blksize _ => true

/-- The responses a command gives when it is carried out in a state. -/
def responsesTo (i : Instr) (s : State) : List Response :=
  match exec i s with
  | .next t => newResponses s t
  | .fault _ => []
  | .refused _ => []

/-- The state after a command. -/
def after (i : Instr) (s : State) : State :=
  match exec i s with
  | .next t => t
  | .fault _ => s
  | .refused _ => s

/-- Two states are the same but for the responses given on the way to them. -/
def sameButResponses (s t : State) : Prop := { s with responses := t.responses } = t

/-- The input payload sizes of rule R42's table. -/
def inputBytes (v : Variant) : Instr → Nat
  | .setkey _ => 8 * v.words
  | .settweak true _ => 16
  | .settweak false _ => 0
  | .encrypt _ => 8 * v.words
  | .decrypt _ => 8 * v.words
  | .blksize _ => 0

/-- The output payload sizes of rule R42's table. -/
def outputBytes (v : Variant) : Instr → Nat
  | .setkey _ => 0
  | .settweak _ _ => 0
  | .encrypt _ => 8 * v.words
  | .decrypt _ => 8 * v.words
  | .blksize _ => 8

/-- The beats of output payload of a command that ends `OK` (rule R67). -/
def outputBeats (v : Variant) : Instr → Nat
  | .setkey _ => 0
  | .settweak _ _ => 0
  | .encrypt _ => v.words
  | .decrypt _ => v.words
  | .blksize _ => 1

/-! The six properties of rule R148, each of the engine's commands on an instance of the given variant. -/

/-- "Inverse law" (rules R123 and R148). -/
def inverseLaw (v : Variant) : Prop :=
  ∀ (ek : List Word) (et : ExpandedTweak) (b : List Word), b.length = v.words →
    decryptBlock v ek et (encryptBlock v ek et b) = b ∧ encryptBlock v ek et (decryptBlock v ek et b) = b

/-- "Key-schedule parity" (rules R83 and R148): of what a SETKEY that ends `OK` leaves in `EK`. -/
def keyScheduleParity (v : Variant) : Prop :=
  ∀ (s t : State) (p : List Byte), s.variant = v → p.length = 8 * v.words → exec (.setkey p) s = .next t →
    t.ek.getD v.words 0 = 0x1BD11BDAA9FC1A22 ^^^ xorAll (loadWords v.words p)

/-- "Tweak-schedule parity" (rules R93 and R148): of what a SETTWEAK that ends `OK` leaves in `ET`. -/
def tweakScheduleParity (v : Variant) : Prop :=
  (∀ (s t : State) (p : List Byte), s.variant = v → p.length = 16 → exec (.settweak true p) s = .next t →
    t.et.t2 = memRead p 0 ^^^ memRead p 8)
  ∧ ∀ s t : State, s.variant = v → exec (.settweak false []) s = .next t → t.et = ⟨0, 0, 0⟩

/-- "Determinism" (rules R125 and R148): "identical key/tweak/block give identical output", in any two states. -/
def determinism (v : Variant) : Prop :=
  ∀ (s t : State) (p : List Byte), s.variant = v → t.variant = v → s.ek = t.ek → s.et = t.et →
    responsesTo (.encrypt p) s = responsesTo (.encrypt p) t ∧ responsesTo (.decrypt p) s = responsesTo (.decrypt p) t

/-- "Known-answer vectors" (rule R148): "Threefish-256, zero key, zero tweak, zero block gives the reference ciphertext",
in full as rule R120's example has it, and from whatever state the three commands start. -/
def knownAnswer : Prop :=
  ∀ s : State, s.variant = .tf256 →
    responsesTo (.encrypt (List.replicate 32 0))
        (after (.settweak false []) (after (.setkey (List.replicate 32 0)) s)) =
      [⟨.ok, [0x84, 0xDA, 0x2A, 0x1F, 0x8B, 0xEA, 0xEE, 0x94, 0x70, 0x66, 0xAE, 0x3E, 0x31, 0x03, 0xF1, 0xAD,
        0x53, 0x6D, 0xB1, 0xF4, 0xA1, 0x19, 0x24, 0x95, 0x11, 0x6B, 0x9F, 0x3C, 0xE6, 0x13, 0x3F, 0xD8]⟩]

/-- "Size rejection" (rules R148 and R150): "keys of 33, 63, 100 bytes fail with `InvalidKeySize`". -/
def sizeRejection (v : Variant) : Prop :=
  ∀ (s : State) (p : List Byte), s.variant = v → p.length ∈ [33, 63, 100] →
    exec (.setkey p) s = .next (s.raise .invalidKeySize)

end Sys2Proof.Safety
end

