-- ==== Sys2Proof/Certificates/Slice0/Obligations.lean ====
section
/-! DEFINITION. The statements for the provers, each from a rule or a section of spec/. None of them rests on the value of
a free value, on the variant `State.reset` has, or on what `V` and `d` hold outside a command. -/

open Sys2Proof Sys2Proof.Machine Sys2Proof.Safety

/-! ### Encoding (spec/30_encoding.md) -/

/-- Words of the opcode table, written out from rules R61 and R62, decode to their commands. -/
def Obligations.SampleHeadersDecode : Prop :=
  decodeTableWord 16 0x1020 = some (.setkey (List.replicate 32 0))
    ∧ decodeTableWord 16 0x2110 = some (.settweak true (List.replicate 16 0))
    ∧ decodeTableWord 16 0x2000 = some (.settweak false [])
    ∧ decodeTableWord 16 0x3040 = some (.encrypt (List.replicate 64 0))
    ∧ decodeTableWord 16 0x4080 = some (.decrypt (List.replicate 128 0))
    ∧ decodeTableWord 16 0x5000 = some (.blksize [])
    ∧ decodeTableWord 16 0x3220 = none ∧ decodeTableWord 16 0x1120 = none ∧ decodeTableWord 16 0x0000 = none

/-- Rules R60, R61 and R66: what the encoder presents for a command that a header can spell is read back as that
command, with every payload byte, and what follows stays at the port. -/
def Obligations.DecodeInvertsEncode : Prop :=
  ∀ (i : Instr) (rest : List PortEvent), WellFormed i = true → fetch (encode i ++ rest) = .command i rest

/-- Rules R61 and R72: a command read from a whole presentation can be spelled, and it spells the header and carries the
payload it was read from. -/
def Obligations.EncodeInvertsDecode : Prop :=
  ∀ (h : Header) (beats : List Word) (rest : List PortEvent) (i : Instr),
    beats.length = beatCount (lenField h) →
    fetch (.header h :: (beats.map .beat ++ rest)) = .command i rest →
    WellFormed i = true ∧ headerOf i = h ∧ i.payload = unpackBeats (lenField h) beats

/-- Rule R69: the classes of headers, in numbers. An illegal header is `IllegalCommand`. A legal header's command is the
one its `op` names, with its `tp`, whatever `len` is; after decoding, the command's own rule checks the length. -/
def Obligations.HeaderClasses : Prop :=
  ∀ (h : Header) (p : List Byte),
    ((∃ e, decode h p = .error e) ↔ illegal h)
    ∧ (¬ illegal h → h.toNat / 2 ^ 12 = 1 → decode h p = .ok (.setkey p))
    ∧ (¬ illegal h → h.toNat / 2 ^ 12 = 2 →
        decode h p = .ok (.settweak (decide (h.toNat / 2 ^ 8 % 2 = 1)) p))
    ∧ (¬ illegal h → h.toNat / 2 ^ 12 = 3 → decode h p = .ok (.encrypt p))
    ∧ (¬ illegal h → h.toNat / 2 ^ 12 = 4 → decode h p = .ok (.decrypt p))
    ∧ (¬ illegal h → h.toNat / 2 ^ 12 = 5 → decode h p = .ok (.blksize p))
    ∧ (illegal h → ∀ v : Variant, presentedStatus v h p = .illegalCommand)
    ∧ (∀ (v : Variant) (i : Instr), decode h p = .ok i → i.payload = p ∧ presentedStatus v h p = statusOf v i)
    ∧ lenField h = h.toNat % 256

/-- Rules R62 and R65: a header spells an operation exactly when it matches that operation's `match`/`mask` row, no
header matches two rows, and a header is illegal exactly when it matches none. -/
def Obligations.OpcodeTableRows : Prop :=
  ∀ h : Header,
    (∀ o, decodeHeader h = .ok o ↔ ∃ r ∈ opTable, r.opcode = o ∧ r.spells h = true)
    ∧ (∀ r ∈ opTable, ∀ q ∈ opTable, r.spells h = true → q.spells h = true → r = q)
    ∧ (illegal h ↔ ∀ r ∈ opTable, r.spells h = false)

/-- Rule R62: "The headers that end with status `OK`, in full". -/
def Obligations.OkHeadersInFull : Prop :=
  ∀ (v : Variant) (h : Header) (p : List Byte), p.length = lenField h →
    (presentedStatus v h p = .ok ↔
      h ∈ (match v with
        | .tf256 => [0x1020, 0x2110, 0x2000, 0x3020, 0x4020, 0x5000]
        | .tf512 => [0x1040, 0x2110, 0x2000, 0x3040, 0x4040, 0x5000]
        | .tf1024 => [0x1080, 0x2110, 0x2000, 0x3080, 0x4080, 0x5000] : List Header))

/-- Rule R66: payload byte `8b + k` is in bits `[8k+7:8k]` of beat b, whatever the lanes past the end hold; a payload
takes `ceil(len / 8)` beats; for a payload of whole words beat b is word b; output payloads are whole words. -/
def Obligations.PayloadTravelsInBeats : Prop :=
  (∀ (len : Nat) (beats : List Word), beats.length = (len + 7) / 8 →
    (unpackBeats len beats).length = len
      ∧ ∀ b k, k < 8 → 8 * b + k < len →
        ((unpackBeats len beats).getD (8 * b + k) 0).toNat = (beats.getD b 0).toNat / 2 ^ (8 * k) % 256)
    ∧ (∀ p : List Byte, (packBeats p).length = (p.length + 7) / 8 ∧ unpackBeats p.length (packBeats p) = p)
    ∧ (∀ ws : List Word, packBeats (storeWords ws) = ws)
    ∧ (∀ (s t : State) (r : Response), step s = .next t → r ∈ newResponses s t → r.payload.length % 8 = 0)

/-- Rule R40: eight bytes to a word, the least significant first, in both directions; and the rule's example. -/
def Obligations.WordsAreLittleEndian : Prop :=
  (∀ (p : List Byte) (off : Nat), (memRead p off).toNat = littleEndian p off)
    ∧ (∀ (ws : List Word) (i k : Nat), i < ws.length → k < 8 →
        ((storeWords ws).getD (8 * i + k) 0).toNat = (ws.getD i 0).toNat / 2 ^ (8 * k) % 256)
    ∧ (∀ ws : List Word, (storeWords ws).length = 8 * ws.length ∧ loadWords ws.length (storeWords ws) = ws)
    ∧ (∀ (n : Nat) (p : List Byte), p.length = 8 * n → storeWords (loadWords n p) = p)
    ∧ storeWords [0x94EEEA8B1F2ADA84] = [0x84, 0xDA, 0x2A, 0x1F, 0x8B, 0xEA, 0xEE, 0x94]

/-! ### The port and the step (spec/20_memory.md section 6, spec/70_reset_and_hazards.md) -/

/-- Rules R47 and R60: when a header and all its beats stand at the port and decode to a command, a step is exec of that
command, with the port left at what follows. The lanes past the payload's end may hold anything. -/
def Obligations.StepRunsDecodedCommand : Prop :=
  ∀ (s : State) (h : Header) (beats : List Word) (rest : List PortEvent) (i : Instr),
    s.port = .header h :: (beats.map .beat ++ rest) → beats.length = beatCount (lenField h) →
    decode h (unpackBeats (lenField h) beats) = .ok i →
    step s = exec i (s.setPort rest)

/-- Rules R47 and R200: every whole presentation, legal or not, is answered in one step, by exactly one response, and the
engine takes exactly its beats. -/
def Obligations.EveryPresentationIsAnswered : Prop :=
  ∀ (s : State) (h : Header) (beats : List Word) (rest : List PortEvent),
    s.port = .header h :: (beats.map .beat ++ rest) → beats.length = beatCount (lenField h) →
    ∃ t r, step s = .next t ∧ t.port = rest ∧ t.responses = s.responses ++ [r]
      ∧ r.status = presentedStatus s.variant h (unpackBeats (lenField h) beats)

/-- Rules R48 and R194: a header presented while a command still lacks beats has no step. A beat with no header before it
has none either, and while beats are lacking and nothing else is presented the engine waits: those two are the model's
(log entries 7 and 6). -/
def Obligations.OverlappedPresentationHasNoStep : Prop :=
  ∀ (s : State) (h g : Header) (w : Word) (beats : List Word) (rest : List PortEvent),
    beats.length < beatCount (lenField h) →
    (s.port = .header h :: (beats.map .beat ++ .header g :: rest) → step s = .fault .overlappedCommand)
    ∧ (s.port = .beat w :: rest → step s = .fault .strayBeat)
    ∧ (s.port = .header h :: beats.map .beat → step s = .next s)

/-- Rule R190 (and R192): the reset event, whatever the engine held, between commands or in the midst of a payload, puts
`EK` and `ET` to zero, keeps N, abandons the command in progress and answers nothing. -/
def Obligations.ResetFromAnyState : Prop :=
  ∀ (s : State) (h : Header) (beats : List Word) (rest : List PortEvent),
    (s.port = .reset :: rest ∨
      (beats.length < beatCount (lenField h) ∧ s.port = .header h :: (beats.map .beat ++ .reset :: rest))) →
    ∃ t, step s = .next t ∧ t.ek = List.replicate (s.variant.words + 1) 0 ∧ t.et = ⟨0, 0, 0⟩
      ∧ t.variant = s.variant ∧ t.port = rest ∧ t.responses = s.responses

/-- Rule R191, which the spec marks as its own inference from rules R190 and R80: reset is not the zero key. -/
def Obligations.ResetIsNotTheZeroKey : Prop :=
  ∀ (v : Variant) (p : List Byte), p = List.replicate (8 * v.words) 0 →
    (State.resetOf v).ek.getD v.words 1 = 0 ∧ ¬ keyed (State.resetOf v)
      ∧ (State.resetOf v).et = expandTweak none
      ∧ ∃ t, exec (.setkey p) (State.resetOf v) = .next t ∧ t.ek.getD v.words 0 = 0x1BD11BDAA9FC1A22 ∧ keyed t

/-! ### Errors (spec/60_exceptions.md) -/

/-- Rule R161: SETKEY raises `InvalidKeySize` exactly when `len != 8*N`, whatever the bytes, and nothing else raises it. -/
def Obligations.InvalidKeySizeExactly : Prop :=
  (∀ (s : State) (p : List Byte), p.length ≠ 8 * s.variant.words →
    exec (.setkey p) s = .next (s.raise .invalidKeySize))
  ∧ ∀ (s t : State) (r : Response), step s = .next t → r ∈ newResponses s t → r.status = .invalidKeySize →
      ∃ p rest, fetch s.port = .command (.setkey p) rest ∧ p.length ≠ 8 * s.variant.words

/-- Rule R162: which commands raise `Precondition`, when, and that the engine "answers a violation with this status and
does nothing else". -/
def Obligations.PreconditionExactly : Prop :=
  (∀ (s : State) (p : List Byte), p.length ≠ 8 * s.variant.words →
    exec (.encrypt p) s = .next (s.raise .precondition) ∧ exec (.decrypt p) s = .next (s.raise .precondition))
  ∧ (∀ (s : State) (tp : Bool) (p : List Byte), ¬ (tp = true ∧ p.length = 16) → ¬ (tp = false ∧ p.length = 0) →
    exec (.settweak tp p) s = .next (s.raise .precondition))
  ∧ (∀ (s : State) (p : List Byte), p.length ≠ 0 → exec (.blksize p) s = .next (s.raise .precondition))
  ∧ ∀ (s t : State) (i : Instr) (r : Response), exec i s = .next t → r ∈ newResponses s t →
      (r.status = .precondition ↔ (∀ p, i ≠ .setkey p) ∧ i.payload.length ≠ inputBytes s.variant i)

/-- Rule R165: one status for one command, the header's legality before the length. Each check decides by itself: an
illegal header whatever the length, then the length against the one the command wants. -/
def Obligations.ChecksInOrder : Prop :=
  (∀ (s : State) (h : Header) (p : List Byte) (rest : List PortEvent),
    p.length = lenField h → s.port = presentRaw h p ++ rest →
    ∃ t r, step s = .next t ∧ newResponses s t = [r]
      ∧ (illegal h → r.status = .illegalCommand)
      ∧ (¬ illegal h → h.toNat / 2 ^ 12 = 1 →
          r.status = if p.length = 8 * s.variant.words then .ok else .invalidKeySize)
      ∧ (∀ i, decode h p = .ok i → (∀ q, i ≠ .setkey q) →
          r.status = if p.length = inputBytes s.variant i then .ok else .precondition))
  ∧ illegal 0x1221 ∧ ¬ illegal 0x1021
  ∧ ∀ (v : Variant) (p : List Byte), p.length = 33 → presentedStatus v 0x1021 p = .invalidKeySize
      ∧ presentedStatus v 0x1221 p = .illegalCommand

/-- Rule R166: a command that raises writes nothing, has its payload taken, answers with the status and an empty payload,
and leaves the engine ready for what the host presents next. -/
def Obligations.RaisingChangesNothing : Prop :=
  ∀ (s : State) (h : Header) (p : List Byte) (rest : List PortEvent),
    p.length = lenField h → s.port = presentRaw h p ++ rest → presentedStatus s.variant h p ≠ .ok →
    ∃ t, step s = .next t ∧ t.ek = s.ek ∧ t.et = s.et ∧ t.variant = s.variant ∧ t.v = s.v ∧ t.d = s.d
      ∧ t.port = rest ∧ t.responses = s.responses ++ [⟨presentedStatus s.variant h p, []⟩]

/-- Rule R167: a failed command has no influence on the next one. That the two runs agree also in `V`, `d` and the free-value
counter, which the spec leaves unspecified after ENCRYPT and DECRYPT (rule R24), is the model's: the free values are
numbered by the counter, which a failed command leaves alone (log entry 2). -/
def Obligations.StatusIsNotKept : Prop :=
  (∀ (s t u : State) (i j : Instr), statusOf s.variant i ≠ .ok → exec i s = .next t → exec j s = .next u →
    ∃ w, exec j t = .next w ∧ sameButResponses w u ∧ newResponses t w = newResponses s u)
  ∧ ∀ (s : State) (p q : List Byte), p.length ≠ 8 * s.variant.words → q.length = 8 * s.variant.words →
      ∃ t u, exec (.setkey p) s = .next t ∧ exec (.encrypt q) t = .next u
        ∧ newResponses t u =
            [⟨.ok, storeWords (encryptBlock s.variant s.ek s.et (loadWords s.variant.words q))⟩]

/-- Rule R174: `InvalidKeySize` is an ordinary outcome, a step to the same state with that status; `Precondition` and
`IllegalCommand` are faults of the run, which is what `checkedStep` makes of them. -/
def Obligations.ContractViolationsFaultARun : Prop :=
  ∀ (s : State) (h : Header) (p : List Byte) (rest : List PortEvent),
    p.length = lenField h → s.port = presentRaw h p ++ rest →
    (presentedStatus s.variant h p = .precondition → checkedStep s = .fault .precondition)
    ∧ (presentedStatus s.variant h p = .illegalCommand → checkedStep s = .fault .illegalCommand)
    ∧ (presentedStatus s.variant h p = .ok → checkedStep s = step s)
    ∧ (presentedStatus s.variant h p = .invalidKeySize →
        checkedStep s = .next ((s.setPort rest).raise .invalidKeySize))

/-- Rule R199: a run that has faulted stays so, and a run of checked steps from a state that has not faulted never
has. -/
def Obligations.FaultedRunsStayFaulted : Prop :=
  (∀ s t : State, step s = .next t → faulted s = true → faulted t = true)
    ∧ ∀ s t : State, checkedStep s = .next t → faulted s = false → faulted t = false

/-! ### The state (spec/10_state.md) -/

/-- Rules R20, R31 and R93: what every reachable state satisfies holds at reset, for each variant. -/
def Obligations.InvariantHoldsAtReset : Prop :=
  invariant State.reset ∧ ∀ v : Variant, invariant (State.resetOf v)

/-- Rules R20, R33 and R93: every step keeps it: the shape of the register files, the tweak parity, and the disjunction of
the all-zero `EK` and the key parity. -/
def Obligations.StepKeepsInvariant : Prop :=
  ∀ s t : State, invariant s → step s = .next t → invariant t

/-- Rules R5, R21 and R22: no step changes N; only a SETKEY of the right length or a reset changes `EK`; only a SETTWEAK of
a right shape or a reset changes `ET`. -/
def Obligations.OnlyWritersOfTheRegisterFiles : Prop :=
  ∀ s t : State, step s = .next t →
    t.variant = s.variant
    ∧ (t.ek ≠ s.ek → (∃ rest, fetch s.port = .reset rest) ∨
        ∃ p rest, fetch s.port = .command (.setkey p) rest ∧ p.length = 8 * s.variant.words)
    ∧ (t.et ≠ s.et → (∃ rest, fetch s.port = .reset rest) ∨
        ∃ tp p rest, fetch s.port = .command (.settweak tp p) rest
          ∧ ((tp = true ∧ p.length = 16) ∨ (tp = false ∧ p.length = 0)))

/-- Rule R33(b): an instance is never keyed and unkeyed at once, a successful SETKEY leaves it keyed, and a reset leaves it
unkeyed; so whether a SETKEY has succeeded since reset can be read off `EK`. -/
def Obligations.KeyedCanBeReadOffEk : Prop :=
  (∀ s : State, ¬ (keyed s ∧ unkeyed s))
    ∧ (∀ (s t : State) (p : List Byte), p.length = 8 * s.variant.words → exec (.setkey p) s = .next t → keyed t)
    ∧ (∀ s : State, unkeyed s.resetEvent)
    ∧ ∀ (s t : State), step s = .next t → t.ek = s.ek → (keyed t ↔ keyed s)

/-! ### Frames -/

/-- What each command leaves unchanged (rule R27). SETKEY may change `EK` and nothing else but the response; SETTWEAK `ET`;
ENCRYPT and DECRYPT the working registers and the round index; BLKSIZE nothing. The engine has no memory, no flags and
no program counter. -/
def Obligations.FrameOfEachCommand : Prop :=
  ∀ (i : Instr) (s t : State), exec i s = .next t →
    t.variant = s.variant ∧ t.port = s.port
    ∧ (∃ r, t.responses = s.responses ++ [r] ∧ r.status = statusOf s.variant i)
    ∧ ((∀ p, i ≠ .setkey p) → t.ek = s.ek)
    ∧ ((∀ tp p, i ≠ .settweak tp p) → t.et = s.et)
    ∧ ((∀ p, i ≠ .encrypt p) → (∀ p, i ≠ .decrypt p) →
        t.v = s.v ∧ t.d = s.d ∧ t.occasions = s.occasions)
    ∧ (statusOf s.variant i ≠ .ok →
        t.ek = s.ek ∧ t.et = s.et ∧ t.v = s.v ∧ t.d = s.d ∧ t.occasions = s.occasions)

/-! ### Key and tweak schedule (spec/40_key_schedule.md, spec/41_tweak_schedule.md) -/

/-- Rule R81, completion: SETKEY with `len = 8*N` ends `OK`, with the key words (little-endian) and the parity word in
`EK` and nothing else changed; any other length raises `InvalidKeySize`; the header; the rule's example. -/
def Obligations.SetkeyCompletes : Prop :=
  (∀ (s : State) (p : List Byte), p.length = 8 * s.variant.words →
    ∃ ek, exec (.setkey p) s = .next { s with ek := ek, responses := s.responses ++ [⟨.ok, []⟩] }
      ∧ ek.length = s.variant.words + 1
      ∧ (∀ i, i < s.variant.words → (ek.getD i 0).toNat = littleEndian p (8 * i))
      ∧ ek.getD s.variant.words 0 = 0x1BD11BDAA9FC1A22 ^^^ xorAll (ek.take s.variant.words))
  ∧ (∀ (s : State) (p : List Byte), p.length ≠ 8 * s.variant.words →
      exec (.setkey p) s = .next (s.raise .invalidKeySize))
  ∧ (∀ p : List Byte, p.length ≤ 255 → headerOf (.setkey p) = 0x1000 ||| BitVec.ofNat 16 p.length)
  ∧ ∀ s : State, s.variant = .tf256 → ∃ t, exec (.setkey (storeWords [1, 2, 4, 8])) s = .next t
      ∧ t.ek = [1, 2, 4, 8, 0x1BD11BDAA9FC1A2D]

/-- Rule R91, completion: SETTWEAK with 16 bytes, and without a tweak, ends `OK` with the three words of `ET` written and
nothing else changed; any other pair raises `Precondition`; the headers; the rule's example. -/
def Obligations.SettweakCompletes : Prop :=
  (∀ (s : State) (p : List Byte), p.length = 16 →
    ∃ t0 t1 : Word, t0.toNat = littleEndian p 0 ∧ t1.toNat = littleEndian p 8 ∧
      exec (.settweak true p) s =
        .next { s with et := ⟨t0, t1, t0 ^^^ t1⟩, responses := s.responses ++ [⟨.ok, []⟩] })
  ∧ (∀ s : State, exec (.settweak false []) s =
      .next { s with et := ⟨0, 0, 0⟩, responses := s.responses ++ [⟨.ok, []⟩] })
  ∧ (∀ (s : State) (tp : Bool) (p : List Byte), ¬ (tp = true ∧ p.length = 16) → ¬ (tp = false ∧ p.length = 0) →
      exec (.settweak tp p) s = .next (s.raise .precondition))
  ∧ (∀ p : List Byte, p.length = 16 → headerOf (.settweak true p) = 0x2110) ∧ headerOf (.settweak false []) = 0x2000
  ∧ ∀ s : State, ∃ t,
      exec (.settweak true [0x00, 0x01, 0x02, 0x03, 0x04, 0x05, 0x06, 0x07,
          0x08, 0x09, 0x0A, 0x0B, 0x0C, 0x0D, 0x0E, 0x0F]) s = .next t
      ∧ t.et = ⟨0x0706050403020100, 0x0F0E0D0C0B0A0908, 0x0808080808080808⟩

/-- Rule R83: key-schedule parity, after every SETKEY that ends `OK`; it does not reach the reset state. -/
def Obligations.KeyScheduleParity : Prop :=
  (∀ key : List Word,
    (expandKey key).getD key.length 0 = 0x1BD11BDAA9FC1A22 ^^^ xorAll key)
  ∧ (∀ (s t : State) (p : List Byte), exec (.setkey p) s = .next t → statusOf s.variant (.setkey p) = .ok →
      t.ek.getD s.variant.words 0 = 0x1BD11BDAA9FC1A22 ^^^ xorAll (t.ek.take s.variant.words))
  ∧ ∀ v : Variant, (State.resetOf v).ek.getD v.words 0 ≠
      0x1BD11BDAA9FC1A22 ^^^ xorAll ((State.resetOf v).ek.take v.words)

/-- Rule R93: tweak-schedule parity, in every reachable state. -/
def Obligations.TweakScheduleParity : Prop :=
  (∀ t0 t1 : Word, (expandTweak (some (t0, t1))).t2 = t0 ^^^ t1)
    ∧ expandTweak none = ⟨0, 0, 0⟩
    ∧ (∀ v : Variant, (State.resetOf v).et.t2 = (State.resetOf v).et.t0 ^^^ (State.resetOf v).et.t1)
    ∧ ∀ s t : State, s.et.t2 = s.et.t0 ^^^ s.et.t1 → step s = .next t → t.et.t2 = t.et.t0 ^^^ t.et.t1

/-- Rule R92: key and tweak in either order give the same state, and a failed command in either sequence disturbs neither
register file. -/
def Obligations.KeyAndTweakAreIndependent : Prop :=
  ∀ (s a b c e : State) (p q : List Byte) (tp : Bool),
    exec (.setkey p) s = .next a → exec (.settweak tp q) a = .next b →
    exec (.settweak tp q) s = .next c → exec (.setkey p) c = .next e →
    b.ek = e.ek ∧ b.et = e.et ∧ b.variant = e.variant
    ∧ (statusOf s.variant (.setkey p) = .ok → b.ek = expandKey (loadWords s.variant.words p))
    ∧ (statusOf s.variant (.settweak tp q) = .ok → b.et = expandTweak (tweakOf tp q))
    ∧ (statusOf s.variant (.setkey p) ≠ .ok → b.ek = s.ek ∧ a.et = s.et)
    ∧ (statusOf s.variant (.settweak tp q) ≠ .ok → b.et = s.et ∧ c.ek = s.ek)

/-! ### Round engine (spec/42_round_engine.md) -/

/-- Rule R102: where each bit goes, rotation right as rotation left, the range of the amounts in use, the examples. -/
def Obligations.RotationMovesBits : Prop :=
  (∀ (x : Word) (r i : Nat), 1 ≤ r → r ≤ 63 → i < 64 →
    (rotl64 x r).getLsbD ((i + r) % 64) = x.getLsbD i
      ∧ (rotr64 x r).getLsbD ((i + (64 - r)) % 64) = x.getLsbD i
      ∧ rotr64 x r = rotl64 x (64 - r))
  ∧ (∀ v : Variant, ∀ row ∈ rotTable v, ∀ r ∈ row, 4 ≤ r ∧ r ≤ 59)
  ∧ rotl64 0x0123456789ABCDEF 14 = 0xD159E26AF37BC048
  ∧ rotl64 0x0123456789ABCDEF 32 = 0x89ABCDEF01234567 ∧ rotr64 0x0123456789ABCDEF 32 = 0x89ABCDEF01234567
  ∧ rotl64 0x8000000000000000 1 = 0x1
  ∧ rotr64 0x0123456789ABCDEF 4 = 0xF0123456789ABCDE
  ∧ rotl64 0xFFFFFFFFFFFFFFFF 37 = 0xFFFFFFFFFFFFFFFF

/-- Rules R108 and R109: what MIX and UNMIX compute, and that they invert each other. -/
def Obligations.UnmixInvertsMix : Prop :=
  (∀ (e o : Word) (r : Nat), 1 ≤ r → r ≤ 63 →
    unmixPair (mixPair e o r).1 (mixPair e o r).2 r = (e, o)
      ∧ mixPair (unmixPair e o r).1 (unmixPair e o r).2 r = (e, o))
  ∧ (∀ (e o : Word) (r : Nat), (unmixPair e o r).2 = rotr64 (e ^^^ o) r
      ∧ (unmixPair e o r).1 = e - (unmixPair e o r).2
      ∧ (mixPair e o r).1.toNat = (e.toNat + o.toNat) % 2 ^ 64
      ∧ (mixPair e o r).2 = rotl64 o r ^^^ (mixPair e o r).1)
  ∧ unmixPair 0x272625242322211E 0xA26321E0A761E4DB 14 = (0x101010101010100F, 0x171615141312110F)

/-- Rules R110 and R111: each pair j is mixed, and unmixed, by itself, with amount j of row `d mod 8`. -/
def Obligations.PairsMixAlone : Prop :=
  ∀ (s : State) (d j : Nat), s.v.length = s.variant.words → j < s.variant.words / 2 →
    ((s.mixLayer d).v.getD (2 * j) 0, (s.mixLayer d).v.getD (2 * j + 1) 0)
        = mixPair (s.v.getD (2 * j) 0) (s.v.getD (2 * j + 1) 0)
            (((rotTable s.variant).getD (d % 8) []).getD j 0)
      ∧ ((s.unmixLayer d).v.getD (2 * j) 0, (s.unmixLayer d).v.getD (2 * j + 1) 0)
        = unmixPair (s.v.getD (2 * j) 0) (s.v.getD (2 * j + 1) 0)
            (((rotTable s.variant).getD (d % 8) []).getD j 0)

/-- Rule R104: each permutation table is a bijection on 0..N-1, keeps parity, and has the inverse table for inverse. -/
def Obligations.PermutationTables : Prop :=
  ∀ v : Variant, (perm v).length = v.words ∧ (invPerm v).length = v.words ∧ (perm v).Nodup
    ∧ ∀ i, i < v.words → (perm v).getD i 0 < v.words ∧ (perm v).getD i 0 % 2 = i % 2
      ∧ (invPerm v).getD ((perm v).getD i 0) 0 = i

/-- Rules R112 and R113: PERMUTE puts word `PERM[i]` in place i, from the old words; UNPERMUTE moves word i to place
`PERM[i]`, and undoes PERMUTE and is undone by it. -/
def Obligations.UnpermuteInvertsPermute : Prop :=
  (∀ s : State, s.v.length = s.variant.words →
    s.permute.unpermute = s ∧ s.unpermute.permute = s
      ∧ ∀ i, i < s.variant.words →
        s.permute.v.getD i 0 = s.v.getD ((perm s.variant).getD i 0) 0
          ∧ s.unpermute.v.getD ((perm s.variant).getD i 0) 0 = s.v.getD i 0
          ∧ s.unpermute.v.getD i 0 = s.v.getD ((invPerm s.variant).getD i 0) 0)
  ∧ (∀ b0 b1 b2 b3 b4 b5 b6 b7 : Word,
      permuteWords (invPerm .tf512) [b0, b1, b2, b3, b4, b5, b6, b7] = [b6, b1, b0, b7, b2, b5, b4, b3])
  ∧ ∀ s : State, s.variant = .tf256 → s.unpermute = s.permute

/-- Rule R105: the words of a subkey in numbers, and the one word of `EK` that a subkey leaves out. -/
def Obligations.SubkeyWords : Prop :=
  ∀ (v : Variant) (ek : List Word) (et : ExpandedTweak) (c : Nat),
    (subkey v ek et c).length = v.words
    ∧ (∀ i, i < v.words →
        ((subkey v ek et c).getD i 0).toNat =
          ((ek.getD ((c + i) % (v.words + 1)) 0).toNat
            + (if i = v.words - 3 then ([et.t0, et.t1, et.t2].getD (c % 3) 0).toNat
               else if i = v.words - 2 then ([et.t0, et.t1, et.t2].getD ((c + 1) % 3) 0).toNat
               else if i = v.words - 1 then c % 2 ^ 64 else 0)) % 2 ^ 64)
    ∧ (∀ k, k ≤ v.words → ((∃ i, i < v.words ∧ (c + i) % (v.words + 1) = k) ↔ k ≠ (c + v.words) % (v.words + 1)))

/-- Rules R106 and R107: injection adds, uninjection subtracts, word by word modulo 2^64, and each undoes the other. -/
def Obligations.UninjectInvertsInject : Prop :=
  ∀ (s : State) (c : Nat), s.v.length = s.variant.words →
    (∀ i, i < s.variant.words →
      ((s.inject c).v.getD i 0).toNat = ((s.v.getD i 0).toNat + ((s.subkey c).getD i 0).toNat) % 2 ^ 64
        ∧ (s.uninject c).v.getD i 0 = s.v.getD i 0 - (s.subkey c).getD i 0)
    ∧ (s.inject c).uninject c = s ∧ (s.uninject c).inject c = s

/-- Rules R114 and R115: ROUND is INJECT at a cycle boundary, MIXLAYER and PERMUTE; UNROUND is UNPERMUTE, UNMIXLAYER and,
at a cycle boundary, UNINJECT; it undoes ROUND and is undone by it. -/
def Obligations.UnroundInvertsRound : Prop :=
  ∀ (s : State) (d : Nat), s.v.length = s.variant.words → d < roundCount s.variant →
    (s.round d).unround d = s ∧ (s.unround d).round d = s
      ∧ (d % 4 = 0 → s.round d = ((s.inject (d / 4)).mixLayer d).permute)
      ∧ (d % 4 ≠ 0 → s.round d = (s.mixLayer d).permute)
      ∧ (d % 4 = 0 → s.unround d = ((s.unpermute).unmixLayer d).uninject (d / 4))
      ∧ (d % 4 ≠ 0 → s.unround d = (s.unpermute).unmixLayer d)

/-- Rules R116 and R117: ENCRYPT_CORE's loop is the written-out schedule, and DECRYPT_CORE's is that schedule undone from
its end; the schedule injects 0, 1, ..., NR/4 in that order. -/
def Obligations.LoopsFollowTheSchedule : Prop :=
  (∀ (s : State) (block : List Word),
    (s.encryptCore block).v = ((encryptSchedule s.variant).foldl (fun t e => e.apply t) (s.setV block)).v
      ∧ (s.decryptCore block).v =
          ((encryptSchedule s.variant).reverse.foldl (fun t e => e.undo t) (s.setV block)).v)
  ∧ ∀ v : Variant, injections (encryptSchedule v) = List.range (roundCount v / 4 + 1)

/-- Rule R123: the inverse law, for every variant, every value of `EK` and `ET` (the parity laws are not needed), and every
block, in both directions. -/
def Obligations.DecryptInvertsEncrypt : Prop :=
  ∀ (v : Variant) (ek : List Word) (et : ExpandedTweak) (b : List Word), b.length = v.words →
    decryptBlock v ek et (encryptBlock v ek et b) = b ∧ encryptBlock v ek et (decryptBlock v ek et b) = b

/-- Rules R120, R124 and R125, completion: ENCRYPT with `len = 8*N` ends `OK`, whatever `EK`, `ET` and the block hold; its
output is the block function of rule R100 of `EK`, `ET` and the payload; only `V` and `d` change, to free values of the
shape of rule R20. -/
def Obligations.EncryptCompletes : Prop :=
  ∀ (s : State) (p : List Byte), p.length = 8 * s.variant.words →
    ∃ v d, exec (.encrypt p) s = .next { s with
        v := v, d := d, occasions := s.occasions + 1
        responses := s.responses ++
          [⟨.ok, storeWords (encryptBlock s.variant s.ek s.et (loadWords s.variant.words p))⟩] }
      ∧ v.length = s.variant.words ∧ d ≤ roundCount s.variant

/-- Rules R121, R124 and R125, completion: DECRYPT likewise. -/
def Obligations.DecryptCompletes : Prop :=
  ∀ (s : State) (p : List Byte), p.length = 8 * s.variant.words →
    ∃ v d, exec (.decrypt p) s = .next { s with
        v := v, d := d, occasions := s.occasions + 1
        responses := s.responses ++
          [⟨.ok, storeWords (decryptBlock s.variant s.ek s.et (loadWords s.variant.words p))⟩] }
      ∧ v.length = s.variant.words ∧ d ≤ roundCount s.variant

/-- Rule R121's corner case: DECRYPT of the output of an ENCRYPT made under the same `EK` and `ET` returns that ENCRYPT's
input, and the other way round, on the bytes of the port. -/
def Obligations.CommandsInvertEachOther : Prop :=
  ∀ (s t : State) (p : List Byte), p.length = 8 * s.variant.words →
    t.variant = s.variant → t.ek = s.ek → t.et = s.et →
    (∃ s' t' out, exec (.encrypt p) s = .next s' ∧ newResponses s s' = [⟨.ok, out⟩]
      ∧ exec (.decrypt out) t = .next t' ∧ newResponses t t' = [⟨.ok, p⟩])
    ∧ ∃ s' t' out, exec (.decrypt p) s = .next s' ∧ newResponses s s' = [⟨.ok, out⟩]
      ∧ exec (.encrypt out) t = .next t' ∧ newResponses t t' = [⟨.ok, p⟩]

/-- Rule R51: the `EK` and `ET` of the last successful SETKEY and SETTWEAK are used by the very next ENCRYPT. -/
def Obligations.NewKeyIsUsedAtOnce : Prop :=
  ∀ (s a b c : State) (k q p : List Byte),
    k.length = 8 * s.variant.words → q.length = 16 → p.length = 8 * s.variant.words →
    exec (.setkey k) s = .next a → exec (.settweak true q) a = .next b → exec (.encrypt p) b = .next c →
    newResponses b c = [⟨.ok, storeWords (encryptBlock s.variant (expandKey (loadWords s.variant.words k))
      (expandTweak (some (memRead q 0, memRead q 8))) (loadWords s.variant.words p))⟩]

/-! ### Whole-machine rules (spec/20_memory.md, spec/10_state.md, spec/43_facade.md) -/

/-- Rule R42: a command ends `OK` exactly when its payload has the table's length, and then its output payload has the
table's length; otherwise it has none. -/
def Obligations.PayloadSizes : Prop :=
  ∀ (i : Instr) (s : State), ∃ t r, exec i s = .next t ∧ newResponses s t = [r]
    ∧ (r.status = .ok ↔ i.payload.length = inputBytes s.variant i)
    ∧ r.payload.length = if r.status = .ok then outputBytes s.variant i else 0

/-- Rule R45: ENCRYPT, DECRYPT and BLKSIZE change no persistent state and repeat their response; SETKEY and SETTWEAK done
twice leave the state they leave when done once. -/
def Obligations.ReadsHaveNoSideEffect : Prop :=
  (∀ (i : Instr) (s : State), readOnly i = true →
    ∃ t u r, exec i s = .next t ∧ exec i t = .next u ∧ t.ek = s.ek ∧ t.et = s.et ∧ t.variant = s.variant
      ∧ newResponses s t = [r] ∧ newResponses t u = [r])
  ∧ ∀ (i : Instr) (s : State), readOnly i = false →
      ∃ t u, exec i s = .next t ∧ exec i t = .next u ∧ u.ek = t.ek ∧ u.et = t.et ∧ u.variant = t.variant

/-- Rule R49: any two of ENCRYPT, DECRYPT and BLKSIZE commute, each with the same response and to the same state; SETKEY
and SETTWEAK commute with each other; neither commutes with ENCRYPT or DECRYPT. That the states agree also in `V`, `d` and
the free-value counter, which the spec leaves unspecified after ENCRYPT and DECRYPT (rule R24), is the model's: the free
values are numbered by the counter (log entry 2). -/
def Obligations.ReadOnlyCommandsCommute : Prop :=
  (∀ (i j : Instr) (s : State), readOnly i = true → readOnly j = true →
    ∃ a b a' b' ri rj, exec i s = .next a ∧ exec j a = .next b ∧ exec j s = .next a' ∧ exec i a' = .next b'
      ∧ newResponses s a = [ri] ∧ newResponses a b = [rj] ∧ newResponses s a' = [rj] ∧ newResponses a' b' = [ri]
      ∧ sameButResponses b b')
  ∧ (∀ (p q : List Byte) (tp : Bool) (s : State),
      ∃ a b a' b', exec (.setkey p) s = .next a ∧ exec (.settweak tp q) a = .next b
        ∧ exec (.settweak tp q) s = .next a' ∧ exec (.setkey p) a' = .next b' ∧ sameButResponses b b')
  ∧ ∃ (s : State) (k t : List Byte) (b : List Byte),
      responsesTo (.encrypt b) (after (.setkey k) s) ≠ responsesTo (.encrypt b) s
      ∧ responsesTo (.decrypt b) (after (.setkey k) s) ≠ responsesTo (.decrypt b) s
      ∧ responsesTo (.encrypt b) (after (.settweak true t) s) ≠ responsesTo (.encrypt b) s
      ∧ responsesTo (.decrypt b) (after (.settweak true t) s) ≠ responsesTo (.decrypt b) s

/-- Rule R125: what a step does is a function of N, `EK`, `ET` and what is presented, and nothing else: not of what earlier
commands left in the working registers, not of the responses given before. -/
def Obligations.NoHiddenState : Prop :=
  ∀ s t s' : State, agree s t → step s = .next s' →
    ∃ t', step t = .next t' ∧ agree s' t' ∧ newResponses s s' = newResponses t t'

/-- Rule R28: `EK` and `ET` are observable only through ENCRYPT and DECRYPT: the response to any other command is the same
whatever the register files hold. -/
def Obligations.KeyIsNotReadBack : Prop :=
  ∀ (i : Instr) (s t s' t' : State), s.variant = t.variant → (∀ p, i ≠ .encrypt p) → (∀ p, i ≠ .decrypt p) →
    exec i s = .next s' → exec i t = .next t' → newResponses s s' = newResponses t t'

/-- Rule R144: BLKSIZE answers `8*N` in one little-endian word, in every state and for the life of the instance, and
raises `Precondition` on a payload. -/
def Obligations.BlksizeAnswers : Prop :=
  (∀ s : State, exec (.blksize []) s =
    .next { s with responses := s.responses ++ [⟨.ok, [BitVec.ofNat 8 (8 * s.variant.words), 0, 0, 0, 0, 0, 0, 0]⟩] })
  ∧ (∀ (s : State) (p : List Byte), p.length ≠ 0 → exec (.blksize p) s = .next (s.raise .precondition))
  ∧ (∀ s t : State, step s = .next t → t.variant = s.variant)
  ∧ headerOf (.blksize []) = 0x5000
  ∧ exec (.blksize []) (State.resetOf .tf512) =
      .next ((State.resetOf .tf512).respond .ok [0x40, 0, 0, 0, 0, 0, 0, 0])

/-- Rule R141: SELECT_VARIANT, and inside an instance the length test of SETKEY. -/
def Obligations.KeyLengthSelectsVariant : Prop :=
  selectVariant 32 = some .tf256 ∧ selectVariant 64 = some .tf512 ∧ selectVariant 128 = some .tf1024
    ∧ (∀ n, n ≠ 32 → n ≠ 64 → n ≠ 128 → selectVariant n = none)
    ∧ ∀ (v : Variant) (n : Nat), selectVariant n = some v ↔ setkeyStatus v n = .ok

/-- Rule R150: keys of 33, 63 and 100 bytes, by their headers, on an instance of any N. -/
def Obligations.OddKeySizesAreRejected : Prop :=
  (∀ (s : State) (h : Header) (p : List Byte) (rest : List PortEvent),
    (h, p.length) ∈ [((0x1021 : Header), 33), (0x103F, 63), (0x1064, 100)] →
    s.port = presentRaw h p ++ rest →
    step s = .next ((s.setPort rest).raise .invalidKeySize) ∧ ((s.setPort rest).raise .invalidKeySize).ek = s.ek)
  ∧ selectVariant 33 = none ∧ selectVariant 63 = none ∧ selectVariant 100 = none

/-- Rule R142: construction with key material is a reset of an instance of the selected variant, SETKEY and SETTWEAK, and
ends with `EK` and `ET` the expansions. For an absent tweak the rule leaves open whether SETTWEAK none is presented; that it
is, and that there are two responses then, is the model's choice (log entry 19). The clause about the state after the
SETKEY says that without it `EK` and `ET` are the same. -/
def Obligations.ConstructionSetsKeyAndTweak : Prop :=
  ∀ (key : List Byte) (tweak : Option (Word × Word)),
    (selectVariant key.length = none → newInstance key tweak = none)
    ∧ ∀ v, selectVariant key.length = some v →
      ∃ a t, exec (.setkey key) (State.resetOf v) = .next a
        ∧ a.variant = v ∧ a.ek = expandKey (loadWords v.words key) ∧ a.et = expandTweak none
        ∧ exec (settweakCommand tweak) a = .next t
        ∧ newInstance key tweak = some (.next t) ∧ t.variant = v
        ∧ t.responses = [⟨.ok, []⟩, ⟨.ok, []⟩]
        ∧ t.ek = expandKey (loadWords v.words key) ∧ t.et = expandTweak tweak

/-- Rules R70 and R71: `NEW key` and `NEW key, t0, t1`, with the key in bytes or in words, presented to an instance in any
state. With a key of `8*N` bytes it is RESET, SETKEY and, where a tweak is given, SETTWEAK, and ends in the state
construction gives. With a key of any other length it "ends with `InvalidKeySize` from its SETKEY and leaves the instance
in the reset state"; that no SETTWEAK is presented then is log entry 18, and that a key of more than 255 bytes ends so
too rests on log entry 17. -/
def Obligations.NewLineRebuildsTheInstance : Prop :=
  (∀ (s : State) (key : List Byte) (t0 t1 : Word) (rest : List PortEvent), key.length = 8 * s.variant.words →
    s.port = (AsmLine.newInstanceB key (some (t0, t1))).events s.variant ++ rest →
    ∃ t, Sys2Proof.core.run 3 s = .next t ∧ t.variant = s.variant
      ∧ t.ek = expandKey (loadWords s.variant.words key) ∧ t.et = ⟨t0, t1, t0 ^^^ t1⟩
      ∧ t.port = rest ∧ t.responses = s.responses ++ [⟨.ok, []⟩, ⟨.ok, []⟩])
  ∧ (∀ (s : State) (key : List Byte) (rest : List PortEvent), key.length = 8 * s.variant.words →
    s.port = (AsmLine.newInstanceB key none).events s.variant ++ rest →
    ∃ t, Sys2Proof.core.run 2 s = .next t ∧ t.variant = s.variant
      ∧ t.ek = expandKey (loadWords s.variant.words key) ∧ t.et = ⟨0, 0, 0⟩
      ∧ t.port = rest ∧ t.responses = s.responses ++ [⟨.ok, []⟩])
  ∧ (∀ (s : State) (key : List Byte) (tweak : Option (Word × Word)) (rest : List PortEvent),
    key.length ≠ 8 * s.variant.words →
    s.port = (AsmLine.newInstanceB key tweak).events s.variant ++ rest →
    ∃ t, Sys2Proof.core.run 2 s = .next t ∧ t.variant = s.variant
      ∧ t.ek = List.replicate (s.variant.words + 1) 0 ∧ t.et = ⟨0, 0, 0⟩
      ∧ t.port = rest ∧ t.responses = s.responses ++ [⟨.invalidKeySize, []⟩])
  ∧ (∀ (v : Variant) (ws : List Word) (tweak : Option (Word × Word)),
    (AsmLine.newInstance ws tweak).events v = (AsmLine.newInstanceB (storeWords ws) tweak).events v
      ∧ (AsmLine.rekey ws).events v = (AsmLine.rekeyB (storeWords ws)).events v)
  ∧ ∀ (v : Variant) (key : List Byte), (AsmLine.rekeyB key).events v = (AsmLine.setkeyB key).events v

/-- Rules R32 and R172: steps of different instances of a platform commute, and a step of one leaves the others as they
were. That a platform is a list of states of which one steps at a time is the model's choice (log entry 16), and the
statement rests on it. -/
def Obligations.InstancesShareNothing : Prop :=
  ∀ (p q r : Platform) (j k : Nat), j ≠ k → p.stepAt j = .next q → q.stepAt k = .next r →
    q[k]? = p[k]? ∧ ∃ q', p.stepAt k = .next q' ∧ Platform.stepAt q' j = .next r

/-! ### Responses at the port, commands no header can spell, and the source's own list of properties -/

/-- Rule R67: what a command adds at the output of the port is the 4-bit status and then the output payload in beats: N
beats, the words of the block, for ENCRYPT and DECRYPT; one beat, `8*N`, for BLKSIZE; none for SETKEY and SETTWEAK and for
every status other than `OK`, that of an illegal header too. -/
def Obligations.ResponsesOnThePort : Prop :=
  (∀ (i : Instr) (s : State), ∃ (t : State) (beats : List Word), exec i s = .next t
    ∧ t.output = s.output ++ .status (statusOf s.variant i).code :: beats.map .beat
    ∧ beats.length = if statusOf s.variant i = .ok then outputBeats s.variant i else 0)
  ∧ (∀ (s : State) (p : List Byte), p.length = 8 * s.variant.words →
    (∃ t, exec (.encrypt p) s = .next t ∧ t.output = s.output ++ .status 0x0 ::
      (encryptBlock s.variant s.ek s.et (loadWords s.variant.words p)).map .beat)
    ∧ ∃ t, exec (.decrypt p) s = .next t ∧ t.output = s.output ++ .status 0x0 ::
      (decryptBlock s.variant s.ek s.et (loadWords s.variant.words p)).map .beat)
  ∧ (∀ s : State, ∃ t, exec (.blksize []) s = .next t
    ∧ t.output = s.output ++ [.status 0x0, .beat (BitVec.ofNat 64 (8 * s.variant.words))])
  ∧ (∀ (s : State) (h : Header) (beats : List Word) (rest : List PortEvent), illegal h →
    s.port = .header h :: (beats.map .beat ++ rest) → beats.length = beatCount (lenField h) →
    ∃ t, step s = .next t ∧ t.output = s.output ++ [.status 0x3])
  ∧ ∀ st : Status, st.code.toNat ≤ 3

/-- Rules R63 and R84, and the model's choice among what rule R63 leaves to the host (log entry 17): a command with more
than 255 bytes of payload, which no header can spell, is presented with `len = 255`; it ends with the status of its own
length check, `InvalidKeySize` for a key, and changes neither register file. -/
def Obligations.UnspellableCommandsFail : Prop :=
  ∀ (i : Instr) (s : State) (rest : List PortEvent), 255 < i.payload.length → s.port = encode i ++ rest →
    lenField (headerOf i) = 255
    ∧ ((∃ p, i = .setkey p) → statusOf s.variant i = .invalidKeySize)
    ∧ ((∀ p, i ≠ .setkey p) → statusOf s.variant i = .precondition)
    ∧ step s = .next ((s.setPort rest).raise (statusOf s.variant i))

/-- Rule R148: the six properties the source states, for every variant. The known answer is the spec's computed one, its
third byte `2A` (spec/90_conflicts.md C1), and rests on the tables of log entry 10. -/
def Obligations.PropertiesTheSourceStates : Prop :=
  (∀ v : Variant, inverseLaw v ∧ keyScheduleParity v ∧ tweakScheduleParity v ∧ determinism v ∧ sizeRejection v)
    ∧ knownAnswer
end

