-- ==== Sys2Proof/Laws/Operands.lean ====
section
/-! SUPPORT. Bytes, words and beats of a payload. -/

namespace Sys2Proof.Machine

theorem byteOf_getLsbD (w : Word) (k j : Nat) : (byteOf w k).getLsbD j = (decide (j < 8) && w.getLsbD (8 * k + j)) := by
  simp [byteOf]

/-- Byte k of a word read from a payload is payload byte off + k. -/
theorem byteOf_memRead (p : List Byte) (off k : Nat) (hk : k < 8) : byteOf (memRead p off) k = p.getD (off + k) 0 := by
  apply BitVec.eq_of_getLsbD_eq
  intro j hj
  rw [byteOf_getLsbD]
  unfold memRead
  interval_cases k <;> simp only [BitVec.getLsbD_append] <;> interval_cases j <;> simp

/-- A word is fixed by its eight bytes. -/
theorem word_eq_of_bytes {x y : Word} (h : ∀ k, k < 8 → byteOf x k = byteOf y k) : x = y := by
  apply BitVec.eq_of_getLsbD_eq
  intro j hj
  have hb := congrArg (fun b => b.getLsbD (j % 8)) (h (j / 8) (by omega))
  simp only [byteOf_getLsbD] at hb
  have hmod : j % 8 < 8 := by omega
  rw [show 8 * (j / 8) + j % 8 = j by omega] at hb
  simpa [hmod] using hb

@[simp] theorem wordBytes_length (w : Word) : (wordBytes w).length = 8 := by simp [wordBytes]

theorem wordBytes_getD (w : Word) {k : Nat} (hk : k < 8) : (wordBytes w).getD k 0 = byteOf w k := by
  simp [wordBytes, List.getD_eq_getElem?_getD, hk]

@[simp] theorem storeWords_nil : storeWords [] = [] := rfl

@[simp] theorem storeWords_cons (w : Word) (ws : List Word) : storeWords (w :: ws) = wordBytes w ++ storeWords ws := by
  simp [storeWords]

@[simp] theorem storeWords_length (ws : List Word) : (storeWords ws).length = 8 * ws.length := by
  induction ws with
  | nil => rfl
  | cons w ws ih => simp [ih]; omega

/-- Payload byte 8i + k of stored words is byte k of word i. -/
theorem storeWords_getD (ws : List Word) (i k : Nat) (hi : i < ws.length) (hk : k < 8) :
    (storeWords ws).getD (8 * i + k) 0 = byteOf (ws.getD i 0) k := by
  induction ws generalizing i with
  | nil => simp at hi
  | cons w ws ih =>
    rw [storeWords_cons]
    cases i with
    | zero =>
      rw [List.getD_append _ _ _ _ (by simp; omega), Nat.mul_zero, Nat.zero_add, wordBytes_getD w hk]
      rfl
    | succ i =>
      rw [List.getD_append_right _ _ _ _ (by simp; omega), wordBytes_length,
        show 8 * (i + 1) + k - 8 = 8 * i + k by omega, ih i (by simpa using hi)]
      rfl

@[simp] theorem loadWords_length (n : Nat) (p : List Byte) : (loadWords n p).length = n := by simp [loadWords]

theorem loadWords_getD (n : Nat) (p : List Byte) {i : Nat} (hi : i < n) :
    (loadWords n p).getD i 0 = memRead p (8 * i) := by
  simp [loadWords, List.getD_eq_getElem?_getD, hi]

/-- Two lists of one length that agree under getD are equal. -/
theorem list_eq_of_getD {α : Type} {xs ys : List α} (d : α) (hl : xs.length = ys.length)
    (h : ∀ i, i < xs.length → xs.getD i d = ys.getD i d) : xs = ys := by
  apply List.ext_getElem hl
  intro i h₁ h₂
  have := h i h₁
  rwa [List.getD_eq_getElem _ _ h₁, List.getD_eq_getElem _ _ h₂] at this

/-- Words stored and loaded again are the same words. -/
theorem loadWords_storeWords (ws : List Word) : loadWords ws.length (storeWords ws) = ws := by
  refine list_eq_of_getD 0 (by simp) fun i hi => ?_
  rw [loadWords_length] at hi
  rw [loadWords_getD _ _ hi]
  apply word_eq_of_bytes
  intro k hk
  rw [byteOf_memRead _ _ _ hk, storeWords_getD ws i k hi hk]

/-- Bytes loaded as words and stored again: the payload's own bytes, and 0 in the lanes past its end. -/
theorem storeWords_loadWords_getD (n : Nat) (p : List Byte) (j : Nat) (hj : j < 8 * n) :
    (storeWords (loadWords n p)).getD j 0 = p.getD j 0 := by
  have hi : j / 8 < n := by omega
  have hk : j % 8 < 8 := by omega
  have h := storeWords_getD (loadWords n p) (j / 8) (j % 8) (by simpa using hi) hk
  rw [loadWords_getD _ _ hi, byteOf_memRead _ _ _ hk, show 8 * (j / 8) + j % 8 = j by omega] at h
  exact h

/-- A payload of whole words, loaded and stored again, is the same payload. -/
theorem storeWords_loadWords (n : Nat) (p : List Byte) (hp : p.length = 8 * n) : storeWords (loadWords n p) = p := by
  refine list_eq_of_getD 0 (by simp [hp]) fun j hj => ?_
  rw [storeWords_length, loadWords_length] at hj
  exact storeWords_loadWords_getD n p j hj

/-- For a payload of whole words the beats are the words (rule R66). -/
theorem packBeats_storeWords (ws : List Word) : packBeats (storeWords ws) = ws := by
  have hb : beatCount (storeWords ws).length = ws.length := by
    rw [storeWords_length, beatCount]
    omega
  rw [packBeats, hb, loadWords_storeWords]

@[simp] theorem packBeats_length (p : List Byte) : (packBeats p).length = beatCount p.length := by simp [packBeats]

theorem unpackBeats_length (len : Nat) (beats : List Word) (h : beats.length = beatCount len) :
    (unpackBeats len beats).length = len := by
  simp only [unpackBeats, List.length_take, storeWords_length, h, beatCount]
  omega

theorem unpackBeats_getD (len : Nat) (beats : List Word) {j : Nat} (hj : j < len) :
    (unpackBeats len beats).getD j 0 = (storeWords beats).getD j 0 := by
  simp [unpackBeats, List.getD_eq_getElem?_getD, hj]

/-- A payload packed into beats is the payload the beats carry. -/
theorem unpackBeats_packBeats (p : List Byte) : unpackBeats p.length (packBeats p) = p := by
  have hl : (unpackBeats p.length (packBeats p)).length = p.length := unpackBeats_length _ _ (packBeats_length p)
  refine list_eq_of_getD 0 hl fun j hj => ?_
  rw [hl] at hj
  rw [unpackBeats_getD _ _ hj, packBeats, storeWords_loadWords_getD _ _ _ (by unfold beatCount; omega)]

end Sys2Proof.Machine
end

