-- ==== Sys2Proof/Laws/Decode.lean ====
section
/-! SUPPORT. The fields of a header written by the encoder, and what fetching a whole presentation gives. -/

namespace Sys2Proof

open Sys2Proof.Machine

@[simp] theorem opField_headerWord (op : BitVec 4) (tp : Bool) (len : BitVec 8) : opField (headerWord op tp len) = op := by
  apply BitVec.eq_of_getLsbD_eq
  intro j hj
  simp only [opField, headerWord, BitVec.getLsbD_extractLsb', BitVec.getLsbD_append]
  interval_cases j <;> simp

@[simp] theorem rsvField_headerWord (op : BitVec 4) (tp : Bool) (len : BitVec 8) : rsvField (headerWord op tp len) = 0 := by
  apply BitVec.eq_of_getLsbD_eq
  intro j hj
  simp only [rsvField, headerWord, BitVec.getLsbD_extractLsb', BitVec.getLsbD_append]
  interval_cases j <;> simp

@[simp] theorem tpField_headerWord (op : BitVec 4) (tp : Bool) (len : BitVec 8) : tpField (headerWord op tp len) = tp := by
  simp only [tpField, headerWord, BitVec.getLsbD_append]
  cases tp <;> simp

@[simp] theorem lenField_headerWord (op : BitVec 4) (tp : Bool) (len : BitVec 8) :
    lenField (headerWord op tp len) = len.toNat := by
  unfold lenField
  congr 1
  apply BitVec.eq_of_getLsbD_eq
  intro j hj
  simp only [headerWord, BitVec.getLsbD_extractLsb', BitVec.getLsbD_append]
  interval_cases j <;> simp

@[simp] theorem opcodeOf_code (o : Opcode) : opcodeOf o.code = some o := by cases o <;> rfl

/-- The header of a command is legal and names its operation. -/
theorem decodeHeader_headerOf (i : Instr) : decodeHeader (headerOf i) = .ok i.opcode := by
  cases i <;> simp [decodeHeader, headerOf, Instr.opcode, Instr.tp]

/-- What the host presents of any payload fits the `len` field. -/
theorem spelled_length_le (p : List Byte) : (spelled p).length ≤ 255 := by simp [spelled]

/-- A payload that fits the `len` field is presented whole. -/
theorem spelled_of_le {p : List Byte} (h : p.length ≤ 255) : spelled p = p := List.take_of_length_le h

/-- A payload that does not fit is presented as 255 bytes. -/
theorem spelled_length_of_lt {p : List Byte} (h : 255 < p.length) : (spelled p).length = 255 := by
  simp only [spelled, List.length_take]
  omega

/-- The header of a command carries its `tp` bit. -/
@[simp] theorem tpField_headerOf (i : Instr) : tpField (headerOf i) = i.tp := tpField_headerWord _ _ _

/-- The header of a command carries the length of what the host presents of its payload. -/
@[simp] theorem lenField_headerOf (i : Instr) : lenField (headerOf i) = (spelled i.payload).length := by
  rw [headerOf, lenField_headerWord, BitVec.toNat_ofNat]
  exact Nat.mod_eq_of_lt (Nat.lt_succ_of_le (spelled_length_le _))

/-- Beats that are all there are taken, and what follows stays. -/
theorem takeBeats_complete (ws : List Word) (rest : List PortEvent) :
    takeBeats ws.length (ws.map .beat ++ rest) = .complete ws rest := by
  induction ws with
  | nil => rfl
  | cons w ws ih => simp [takeBeats, ih]

/-- Fetching a whole presentation is decoding its header with the payload its beats carry. -/
theorem fetch_presentation (h : Header) (beats : List Word) (rest : List PortEvent)
    (hl : beats.length = beatCount (lenField h)) :
    fetch (.header h :: (beats.map .beat ++ rest)) =
      match decode h (unpackBeats (lenField h) beats) with
      | .error why => .illegal why rest
      | .ok i => .command i rest := by
  simp only [fetch, ← hl, takeBeats_complete] <;> rfl

/-- Fetching a header presented with a payload of its own length. -/
theorem fetch_presentRaw (h : Header) (p : List Byte) (rest : List PortEvent) (hp : p.length = lenField h) :
    fetch (presentRaw h p ++ rest) =
      match decode h p with
      | .error why => .illegal why rest
      | .ok i => .command i rest := by
  have hl : (packBeats p).length = beatCount (lenField h) := by rw [packBeats_length, hp]
  have hf := fetch_presentation h (packBeats p) rest hl
  rw [← hp, unpackBeats_packBeats] at hf
  exact hf

end Sys2Proof
end

