-- ==== Sys2Proof/Laws/Flags.lean ====
section
/-! SUPPORT. When each command's status is `OK`, and what it is otherwise. -/

namespace Sys2Proof.Machine

open Sys2Proof.Safety

theorem setkeyStatus_ok_iff (v : Variant) (n : Nat) : setkeyStatus v n = .ok ↔ n = 8 * v.words := by
  unfold setkeyStatus
  split <;> simp_all

theorem blockStatus_ok_iff (v : Variant) (n : Nat) : blockStatus v n = .ok ↔ n = 8 * v.words := by
  unfold blockStatus
  split <;> simp_all

theorem blksizeStatus_ok_iff (n : Nat) : blksizeStatus n = .ok ↔ n = 0 := by
  unfold blksizeStatus
  split <;> simp_all

theorem settweakStatus_ok_iff (tp : Bool) (n : Nat) :
    settweakStatus tp n = .ok ↔ (tp = true ∧ n = 16) ∨ (tp = false ∧ n = 0) := by
  unfold settweakStatus
  split <;> simp_all

/-- Everything a command's status can be: `OK`, `InvalidKeySize` for a SETKEY of another length, or `Precondition` for
another command. -/
theorem statusOf_cases (v : Variant) (i : Instr) :
    statusOf v i = .ok
      ∨ (statusOf v i = .invalidKeySize ∧ ∃ p, i = .setkey p ∧ p.length ≠ 8 * v.words)
      ∨ (statusOf v i = .precondition ∧ ∀ p, i ≠ .setkey p) := by
  cases i with
  | setkey p =>
    by_cases h : p.length = blockBytes v
    · exact .inl (if_pos h)
    · exact .inr (.inl ⟨if_neg h, p, rfl, h⟩)
  | settweak tp p =>
    by_cases h : (tp = true ∧ p.length = 16) ∨ (tp = false ∧ p.length = 0)
    · exact .inl (if_pos h)
    · exact .inr (.inr ⟨if_neg h, by simp⟩)
  | encrypt p =>
    by_cases h : p.length = blockBytes v
    · exact .inl (if_pos h)
    · exact .inr (.inr ⟨if_neg h, by simp⟩)
  | decrypt p =>
    by_cases h : p.length = blockBytes v
    · exact .inl (if_pos h)
    · exact .inr (.inr ⟨if_neg h, by simp⟩)
  | blksize p =>
    by_cases h : p.length = 0
    · exact .inl (if_pos h)
    · exact .inr (.inr ⟨if_neg h, by simp⟩)

/-- A response whose payload is whole words stands at the port as its status and these words (rules R66 and R67). -/
theorem output_storeWords (st : Status) (ws : List Word) :
    (Response.mk st (storeWords ws)).output = .status st.code :: ws.map .beat := by
  simp [Response.output, Response.beats, packBeats_storeWords]

/-- A response without a payload stands at the port as its status alone (rule R67). -/
@[simp] theorem output_nil (st : Status) : (Response.mk st []).output = [.status st.code] := by
  have h := output_storeWords st []
  simpa [storeWords] using h

/-- What a response that is given adds at the port. -/
theorem output_of_append {s t : State} {r : Response} (h : t.responses = s.responses ++ [r]) :
    t.output = s.output ++ r.output := by simp [State.output, h]

end Sys2Proof.Machine
end

