-- ==== Sys2Proof/Laws/State.lean ====
section
/-! SUPPORT. One lemma per field per update of the state, each true by rfl, so that no later proof unfolds a record
update; and the fields of a state right after reset. -/

namespace Sys2Proof.Machine.State

open Sys2Proof Sys2Proof.Machine

variable (s : State)

/-! ### setEk -/

@[simp] theorem setEk_variant (x : List Word) : (s.setEk x).variant = s.variant := rfl
@[simp] theorem setEk_ek (x : List Word) : (s.setEk x).ek = x := rfl
@[simp] theorem setEk_et (x : List Word) : (s.setEk x).et = s.et := rfl
@[simp] theorem setEk_v (x : List Word) : (s.setEk x).v = s.v := rfl
@[simp] theorem setEk_d (x : List Word) : (s.setEk x).d = s.d := rfl
@[simp] theorem setEk_port (x : List Word) : (s.setEk x).port = s.port := rfl
@[simp] theorem setEk_responses (x : List Word) : (s.setEk x).responses = s.responses := rfl
@[simp] theorem setEk_occasions (x : List Word) : (s.setEk x).occasions = s.occasions := rfl

/-! ### setEt -/

@[simp] theorem setEt_variant (x : ExpandedTweak) : (s.setEt x).variant = s.variant := rfl
@[simp] theorem setEt_ek (x : ExpandedTweak) : (s.setEt x).ek = s.ek := rfl
@[simp] theorem setEt_et (x : ExpandedTweak) : (s.setEt x).et = x := rfl
@[simp] theorem setEt_v (x : ExpandedTweak) : (s.setEt x).v = s.v := rfl
@[simp] theorem setEt_d (x : ExpandedTweak) : (s.setEt x).d = s.d := rfl
@[simp] theorem setEt_port (x : ExpandedTweak) : (s.setEt x).port = s.port := rfl
@[simp] theorem setEt_responses (x : ExpandedTweak) : (s.setEt x).responses = s.responses := rfl
@[simp] theorem setEt_occasions (x : ExpandedTweak) : (s.setEt x).occasions = s.occasions := rfl

/-! ### setV -/

@[simp] theorem setV_variant (x : List Word) : (s.setV x).variant = s.variant := rfl
@[simp] theorem setV_ek (x : List Word) : (s.setV x).ek = s.ek := rfl
@[simp] theorem setV_et (x : List Word) : (s.setV x).et = s.et := rfl
@[simp] theorem setV_v (x : List Word) : (s.setV x).v = x := rfl
@[simp] theorem setV_d (x : List Word) : (s.setV x).d = s.d := rfl
@[simp] theorem setV_port (x : List Word) : (s.setV x).port = s.port := rfl
@[simp] theorem setV_responses (x : List Word) : (s.setV x).responses = s.responses := rfl
@[simp] theorem setV_occasions (x : List Word) : (s.setV x).occasions = s.occasions := rfl

/-! ### setD -/

@[simp] theorem setD_variant (x : Nat) : (s.setD x).variant = s.variant := rfl
@[simp] theorem setD_ek (x : Nat) : (s.setD x).ek = s.ek := rfl
@[simp] theorem setD_et (x : Nat) : (s.setD x).et = s.et := rfl
@[simp] theorem setD_v (x : Nat) : (s.setD x).v = s.v := rfl
@[simp] theorem setD_d (x : Nat) : (s.setD x).d = x := rfl
@[simp] theorem setD_port (x : Nat) : (s.setD x).port = s.port := rfl
@[simp] theorem setD_responses (x : Nat) : (s.setD x).responses = s.responses := rfl
@[simp] theorem setD_occasions (x : Nat) : (s.setD x).occasions = s.occasions := rfl

/-! ### setPort -/

@[simp] theorem setPort_variant (x : List PortEvent) : (s.setPort x).variant = s.variant := rfl
@[simp] theorem setPort_ek (x : List PortEvent) : (s.setPort x).ek = s.ek := rfl
@[simp] theorem setPort_et (x : List PortEvent) : (s.setPort x).et = s.et := rfl
@[simp] theorem setPort_v (x : List PortEvent) : (s.setPort x).v = s.v := rfl
@[simp] theorem setPort_d (x : List PortEvent) : (s.setPort x).d = s.d := rfl
@[simp] theorem setPort_port (x : List PortEvent) : (s.setPort x).port = x := rfl
@[simp] theorem setPort_responses (x : List PortEvent) : (s.setPort x).responses = s.responses := rfl
@[simp] theorem setPort_occasions (x : List PortEvent) : (s.setPort x).occasions = s.occasions := rfl

/-! ### respond -/

@[simp] theorem respond_variant (st : Status) (p : List Byte) : (s.respond st p).variant = s.variant := rfl
@[simp] theorem respond_ek (st : Status) (p : List Byte) : (s.respond st p).ek = s.ek := rfl
@[simp] theorem respond_et (st : Status) (p : List Byte) : (s.respond st p).et = s.et := rfl
@[simp] theorem respond_v (st : Status) (p : List Byte) : (s.respond st p).v = s.v := rfl
@[simp] theorem respond_d (st : Status) (p : List Byte) : (s.respond st p).d = s.d := rfl
@[simp] theorem respond_port (st : Status) (p : List Byte) : (s.respond st p).port = s.port := rfl
@[simp] theorem respond_responses (st : Status) (p : List Byte) : (s.respond st p).responses = s.responses ++ [⟨st, p⟩] := rfl
@[simp] theorem respond_occasions (st : Status) (p : List Byte) : (s.respond st p).occasions = s.occasions := rfl

/-! ### raise -/

@[simp] theorem raise_variant (st : Status) : (s.raise st).variant = s.variant := rfl
@[simp] theorem raise_ek (st : Status) : (s.raise st).ek = s.ek := rfl
@[simp] theorem raise_et (st : Status) : (s.raise st).et = s.et := rfl
@[simp] theorem raise_v (st : Status) : (s.raise st).v = s.v := rfl
@[simp] theorem raise_d (st : Status) : (s.raise st).d = s.d := rfl
@[simp] theorem raise_port (st : Status) : (s.raise st).port = s.port := rfl
@[simp] theorem raise_responses (st : Status) : (s.raise st).responses = s.responses ++ [⟨st, []⟩] := rfl
@[simp] theorem raise_occasions (st : Status) : (s.raise st).occasions = s.occasions := rfl

/-! ### unspecifyWorking -/

@[simp] theorem unspecifyWorking_variant : s.unspecifyWorking.variant = s.variant := rfl
@[simp] theorem unspecifyWorking_ek : s.unspecifyWorking.ek = s.ek := rfl
@[simp] theorem unspecifyWorking_et : s.unspecifyWorking.et = s.et := rfl
@[simp] theorem unspecifyWorking_v : s.unspecifyWorking.v = (List.range s.variant.words).map (Config.freeWord s.occasions) := rfl
@[simp] theorem unspecifyWorking_d : s.unspecifyWorking.d = Config.freeIndex s.occasions % (roundCount s.variant + 1) := rfl
@[simp] theorem unspecifyWorking_port : s.unspecifyWorking.port = s.port := rfl
@[simp] theorem unspecifyWorking_responses : s.unspecifyWorking.responses = s.responses := rfl
@[simp] theorem unspecifyWorking_occasions : s.unspecifyWorking.occasions = s.occasions + 1 := rfl

/-! ### resetEvent -/

@[simp] theorem resetEvent_variant : s.resetEvent.variant = s.variant := rfl
@[simp] theorem resetEvent_ek : s.resetEvent.ek = List.replicate (s.variant.words + 1) 0 := rfl
@[simp] theorem resetEvent_et : s.resetEvent.et = ⟨0, 0, 0⟩ := rfl
@[simp] theorem resetEvent_v : s.resetEvent.v = (List.range s.variant.words).map (Config.freeWord s.occasions) := rfl
@[simp] theorem resetEvent_d : s.resetEvent.d = Config.freeIndex s.occasions % (roundCount s.variant + 1) := rfl
@[simp] theorem resetEvent_port : s.resetEvent.port = s.port := rfl
@[simp] theorem resetEvent_responses : s.resetEvent.responses = s.responses := rfl
@[simp] theorem resetEvent_occasions : s.resetEvent.occasions = s.occasions + 1 := rfl

/-! ### deliverBlock -/

@[simp] theorem deliverBlock_variant : s.deliverBlock.variant = s.variant := rfl
@[simp] theorem deliverBlock_ek : s.deliverBlock.ek = s.ek := rfl
@[simp] theorem deliverBlock_et : s.deliverBlock.et = s.et := rfl
@[simp] theorem deliverBlock_v : s.deliverBlock.v = (List.range s.variant.words).map (Config.freeWord s.occasions) := rfl
@[simp] theorem deliverBlock_d : s.deliverBlock.d = Config.freeIndex s.occasions % (roundCount s.variant + 1) := rfl
@[simp] theorem deliverBlock_port : s.deliverBlock.port = s.port := rfl
@[simp] theorem deliverBlock_responses : s.deliverBlock.responses = s.responses ++ [⟨.ok, storeWords s.v⟩] := rfl
@[simp] theorem deliverBlock_occasions : s.deliverBlock.occasions = s.occasions + 1 := rfl

/-! ### present -/

@[simp] theorem present_variant (x : List PortEvent) : (s.present x).variant = s.variant := rfl
@[simp] theorem present_ek (x : List PortEvent) : (s.present x).ek = s.ek := rfl
@[simp] theorem present_et (x : List PortEvent) : (s.present x).et = s.et := rfl
@[simp] theorem present_v (x : List PortEvent) : (s.present x).v = s.v := rfl
@[simp] theorem present_d (x : List PortEvent) : (s.present x).d = s.d := rfl
@[simp] theorem present_port (x : List PortEvent) : (s.present x).port = x ++ s.port := rfl
@[simp] theorem present_responses (x : List PortEvent) : (s.present x).responses = s.responses := rfl
@[simp] theorem present_occasions (x : List PortEvent) : (s.present x).occasions = s.occasions := rfl

/-! ### Reset -/

variable (v : Variant)

@[simp] theorem resetOf_variant : (resetOf v).variant = v := rfl
@[simp] theorem resetOf_ek : (resetOf v).ek = List.replicate (v.words + 1) 0 := rfl
@[simp] theorem resetOf_et : (resetOf v).et = ⟨0, 0, 0⟩ := rfl
@[simp] theorem resetOf_v : (resetOf v).v = List.replicate v.words 0 := rfl
@[simp] theorem resetOf_d : (resetOf v).d = 0 := rfl
@[simp] theorem resetOf_port : (resetOf v).port = [] := rfl
@[simp] theorem resetOf_responses : (resetOf v).responses = [] := rfl
@[simp] theorem resetOf_occasions : (resetOf v).occasions = 0 := rfl

/-! ### What stands at the output of the port -/

@[simp] theorem respond_output (st : Status) (p : List Byte) :
    (s.respond st p).output = s.output ++ (Response.mk st p).output := by simp [output]
@[simp] theorem raise_output (st : Status) : (s.raise st).output = s.output ++ [.status st.code] := by
  simp [output, Response.output, Response.beats, packBeats, loadWords, beatCount]
theorem output_eq (t : State) (h : t.responses = s.responses) : t.output = s.output := by rw [output, h, output]
@[simp] theorem setPort_output (x : List PortEvent) : (s.setPort x).output = s.output := rfl
@[simp] theorem unspecifyWorking_output : s.unspecifyWorking.output = s.output := rfl
@[simp] theorem resetEvent_output : s.resetEvent.output = s.output := rfl
@[simp] theorem resetOf_output (v : Variant) : (resetOf v).output = [] := rfl

/-! ### Updates that meet -/

@[simp] theorem setV_setV (x y : List Word) : (s.setV x).setV y = s.setV y := rfl
@[simp] theorem setV_self : s.setV s.v = s := rfl
@[simp] theorem setPort_setPort (x y : List PortEvent) : (s.setPort x).setPort y = s.setPort y := rfl
theorem setV_setD (x : List Word) (n : Nat) : (s.setV x).setD n = (s.setD n).setV x := rfl

end Sys2Proof.Machine.State
end

