-- ==== Sys2Proof/Laws/Ops.lean ====
section
/-! SUPPORT. The shared operations: everything a command run under a status can do, and what exec can answer. -/

namespace Sys2Proof.Machine

theorem underStatus_ok (f : State → State) (s : State) : underStatus .ok f s = .next (f s) := by
  simp [underStatus]

theorem underStatus_raises {st : Status} (h : st ≠ .ok) (f : State → State) (s : State) :
    underStatus st f s = .next (s.raise st) := by
  simp [underStatus, h]

/-- Everything `underStatus` can do: it answers a next state, by the effect or by raising. -/
theorem underStatus_cases (st : Status) (f : State → State) (s : State) :
    (st = .ok ∧ underStatus st f s = .next (f s)) ∨
      (st ≠ .ok ∧ underStatus st f s = .next (s.raise st)) := by
  by_cases h : st = .ok
  · subst h
    exact .inl ⟨rfl, underStatus_ok f s⟩
  · exact .inr ⟨h, underStatus_raises h f s⟩

/-- The state a command leaves when its status is `OK`. -/
def effectOf : Instr → State → State
  | .setkey p, s => (s.setEk (expandKey (loadWords s.variant.words p))).respond .ok []
  | .settweak tp p, s => (s.setEt (expandTweak (tweakOf tp p))).respond .ok []
  | .encrypt p, s => (s.encryptCore (loadWords s.variant.words p)).deliverBlock
  | .decrypt p, s => (s.decryptCore (loadWords s.variant.words p)).deliverBlock
  | .blksize _, s => s.respond .ok (wordBytes (BitVec.ofNat 64 (blockBytes s.variant)))

/-- Every command is its effect, run under its status. -/
theorem exec_eq (i : Instr) (s : State) : exec i s = underStatus (statusOf s.variant i) (effectOf i) s := by
  cases i <;> rfl

/-- Everything exec can do: a next state, by the command's effect or by raising its status. -/
theorem exec_cases (i : Instr) (s : State) :
    (statusOf s.variant i = .ok ∧ exec i s = .next (effectOf i s)) ∨
      (statusOf s.variant i ≠ .ok ∧ exec i s = .next (s.raise (statusOf s.variant i))) := by
  rw [exec_eq]
  exact underStatus_cases _ _ _

theorem exec_of_ok {i : Instr} {s : State} (h : statusOf s.variant i = .ok) : exec i s = .next (effectOf i s) := by
  rw [exec_eq, h, underStatus_ok]

theorem exec_of_raise {i : Instr} {s : State} (h : statusOf s.variant i ≠ .ok) :
    exec i s = .next (s.raise (statusOf s.variant i)) := by
  rw [exec_eq, underStatus_raises h]

end Sys2Proof.Machine
end

