-- ==== Sys2Proof/Laws/PerInstr.lean ====
section
/-! SUPPORT. The family HeaderFields, one lemma per constructor of `Instr`: a command that can be spelled has a header whose
operation, `tp` and `len` are the command's own (rules R61 and R62). -/

namespace Sys2Proof.Laws.HeaderFields

open Sys2Proof

/-- What the family says of one command. -/
def Statement (i : Instr) : Prop :=
  WellFormed i = true →
    decodeHeader (headerOf i) = .ok i.opcode ∧ tpField (headerOf i) = i.tp
      ∧ lenField (headerOf i) = i.payload.length

theorem of_fits (i : Instr) (h : i.payload.length ≤ 255) :
    decodeHeader (headerOf i) = .ok i.opcode ∧ tpField (headerOf i) = i.tp
      ∧ lenField (headerOf i) = i.payload.length := by
  rw [lenField_headerOf, spelled_of_le h]
  exact ⟨decodeHeader_headerOf i, tpField_headerOf i, rfl⟩

theorem setkey (p : List Byte) : Statement (.setkey p) := fun h => of_fits _ (of_decide_eq_true h)
theorem settweak (tp : Bool) (p : List Byte) : Statement (.settweak tp p) := fun h => of_fits _ (of_decide_eq_true h)
theorem encrypt (p : List Byte) : Statement (.encrypt p) := fun h => of_fits _ (of_decide_eq_true h)
theorem decrypt (p : List Byte) : Statement (.decrypt p) := fun h => of_fits _ (of_decide_eq_true h)
theorem blksize (p : List Byte) : Statement (.blksize p) := fun h => of_fits _ (of_decide_eq_true h)

end Sys2Proof.Laws.HeaderFields
end

