-- ==== Sys2Proof/Laws/RoundEngine.lean ====
section
/-! SUPPORT. The round engine touches the working registers and the round index, and nothing else; and what it makes of
`V` depends on N, `EK`, `ET` and `V` alone. -/

namespace Sys2Proof.Machine

/-- A state differs from another in `V` and `d` at most. -/
def SameButWorking (s t : State) : Prop := t = { s with v := t.v, d := t.d }

namespace SameButWorking

variable {s t u : State}

theorem refl (s : State) : SameButWorking s s := rfl

theorem trans (h : SameButWorking s t) (k : SameButWorking t u) : SameButWorking s u := by
  unfold SameButWorking at *
  rw [h] at k
  exact k

theorem setV (h : SameButWorking s t) (x : List Word) : SameButWorking s (t.setV x) := by
  unfold SameButWorking at *
  rw [h]
  rfl

theorem setD (h : SameButWorking s t) (x : Nat) : SameButWorking s (t.setD x) := by
  unfold SameButWorking at *
  rw [h]
  rfl

theorem variant (h : SameButWorking s t) : t.variant = s.variant := by rw [h]
theorem ek (h : SameButWorking s t) : t.ek = s.ek := by rw [h]
theorem et (h : SameButWorking s t) : t.et = s.et := by rw [h]
theorem port (h : SameButWorking s t) : t.port = s.port := by rw [h]
theorem responses (h : SameButWorking s t) : t.responses = s.responses := by rw [h]
theorem occasions (h : SameButWorking s t) : t.occasions = s.occasions := by rw [h]

end SameButWorking

theorem round_sameButWorking (s : State) (d : Nat) : SameButWorking s (s.round d) := by
  unfold State.round
  split
  · exact (((SameButWorking.refl s).setV _).setV _).setV _
  · exact ((SameButWorking.refl s).setV _).setV _

theorem unround_sameButWorking (s : State) (d : Nat) : SameButWorking s (s.unround d) := by
  unfold State.unround
  split
  · exact (((SameButWorking.refl s).setV _).setV _).setV _
  · exact ((SameButWorking.refl s).setV _).setV _

theorem rounds_sameButWorking (n : Nat) (s : State) : SameButWorking s (State.rounds n s) := by
  induction n generalizing s with
  | zero => exact .refl s
  | succ n ih => exact ((round_sameButWorking s s.d).setD _).trans (ih _)

theorem unrounds_sameButWorking (n : Nat) (s : State) : SameButWorking s (State.unrounds n s) := by
  induction n generalizing s with
  | zero => exact .refl s
  | succ n ih => exact (((SameButWorking.refl s).setD _).trans (unround_sameButWorking _ _)).trans (ih _)

/-- Everything ENCRYPT_CORE can change: `V` and `d`. -/
theorem encryptCore_sameButWorking (s : State) (b : List Word) : SameButWorking s (s.encryptCore b) :=
  ((((SameButWorking.refl s).setV b).setD 0).trans (rounds_sameButWorking _ _)).setV _

/-- Everything DECRYPT_CORE can change: `V` and `d`. -/
theorem decryptCore_sameButWorking (s : State) (b : List Word) : SameButWorking s (s.decryptCore b) :=
  ((((SameButWorking.refl s).setV b).setD _).setV _).trans (unrounds_sameButWorking _ _)

/-- Two states agree in what the round engine reads: N, `EK`, `ET`, `V` and `d`. -/
def SameEngine (s t : State) : Prop :=
  s.variant = t.variant ∧ s.ek = t.ek ∧ s.et = t.et ∧ s.v = t.v ∧ s.d = t.d

namespace SameEngine

variable {s t : State}

theorem setV (h : SameEngine s t) {x y : List Word} (hxy : x = y) : SameEngine (s.setV x) (t.setV y) :=
  ⟨h.1, h.2.1, h.2.2.1, hxy, h.2.2.2.2⟩

theorem setD (h : SameEngine s t) {x y : Nat} (hxy : x = y) : SameEngine (s.setD x) (t.setD y) :=
  ⟨h.1, h.2.1, h.2.2.1, h.2.2.2.1, hxy⟩

theorem subkey (h : SameEngine s t) (c : Nat) : s.subkey c = t.subkey c := by
  simp only [State.subkey, h.1, h.2.1, h.2.2.1]

theorem inject (h : SameEngine s t) (c : Nat) : SameEngine (s.inject c) (t.inject c) :=
  h.setV (by rw [h.subkey, h.2.2.2.1])

theorem uninject (h : SameEngine s t) (c : Nat) : SameEngine (s.uninject c) (t.uninject c) :=
  h.setV (by rw [h.subkey, h.2.2.2.1])

theorem mixLayer (h : SameEngine s t) (d : Nat) : SameEngine (s.mixLayer d) (t.mixLayer d) :=
  h.setV (by rw [h.1, h.2.2.2.1])

theorem unmixLayer (h : SameEngine s t) (d : Nat) : SameEngine (s.unmixLayer d) (t.unmixLayer d) :=
  h.setV (by rw [h.1, h.2.2.2.1])

theorem permute (h : SameEngine s t) : SameEngine s.permute t.permute :=
  h.setV (by rw [h.1, h.2.2.2.1])

theorem unpermute (h : SameEngine s t) : SameEngine s.unpermute t.unpermute :=
  h.setV (by rw [h.1, h.2.2.2.1])

theorem round (h : SameEngine s t) (d : Nat) : SameEngine (s.round d) (t.round d) := by
  unfold State.round
  split
  · exact ((h.inject _).mixLayer d).permute
  · exact (h.mixLayer d).permute

theorem unround (h : SameEngine s t) (d : Nat) : SameEngine (s.unround d) (t.unround d) := by
  unfold State.unround
  split
  · exact (h.unpermute.unmixLayer d).uninject _
  · exact h.unpermute.unmixLayer d

theorem rounds (n : Nat) (h : SameEngine s t) : SameEngine (State.rounds n s) (State.rounds n t) := by
  induction n generalizing s t with
  | zero => exact h
  | succ n ih =>
    unfold State.rounds
    rw [h.2.2.2.2]
    exact ih ((h.round t.d).setD rfl)

theorem unrounds (n : Nat) (h : SameEngine s t) : SameEngine (State.unrounds n s) (State.unrounds n t) := by
  induction n generalizing s t with
  | zero => exact h
  | succ n ih =>
    unfold State.unrounds
    rw [h.2.2.2.2]
    exact ih ((h.setD rfl).unround _)

end SameEngine

/-- ENCRYPT_CORE on the state is the block function of rule R100: its result is a function of N, `EK`, `ET` and the
block. -/
theorem encryptCore_v (s : State) (b : List Word) :
    (s.encryptCore b).v = encryptBlock s.variant s.ek s.et b := by
  have h : SameEngine ((s.setV b).setD 0) (((State.holding s.variant s.ek s.et).setV b).setD 0) :=
    ⟨rfl, rfl, rfl, rfl, rfl⟩
  exact ((h.rounds (roundCount s.variant)).inject (roundCount s.variant / 4)).2.2.2.1

/-- DECRYPT_CORE on the state is the block function of rule R100. -/
theorem decryptCore_v (s : State) (b : List Word) :
    (s.decryptCore b).v = decryptBlock s.variant s.ek s.et b := by
  have h : SameEngine ((s.setV b).setD (roundCount s.variant))
      (((State.holding s.variant s.ek s.et).setV b).setD (roundCount s.variant)) :=
    ⟨rfl, rfl, rfl, rfl, rfl⟩
  exact ((h.uninject (roundCount s.variant / 4)).unrounds (roundCount s.variant)).2.2.2.1

/-! ### Lengths -/

@[simp] theorem subkey_length (v : Variant) (ek : List Word) (et : ExpandedTweak) (c : Nat) :
    (subkey v ek et c).length = v.words := by simp [subkey]

@[simp] theorem State.subkey_length (s : State) (c : Nat) : (s.subkey c).length = s.variant.words := by
  simp [State.subkey]

@[simp] theorem perm_length (v : Variant) : (perm v).length = v.words := by cases v <;> rfl

@[simp] theorem invPerm_length (v : Variant) : (invPerm v).length = v.words := by cases v <;> rfl

@[simp] theorem permuteWords_length (table : List Nat) (ws : List Word) :
    (permuteWords table ws).length = table.length := by simp [permuteWords]

theorem mixWords_length (row : List Nat) (ws : List Word) : (mixWords row ws).length = ws.length := by
  fun_induction mixWords row ws <;> simp_all

theorem unmixWords_length (row : List Nat) (ws : List Word) : (unmixWords row ws).length = ws.length := by
  fun_induction unmixWords row ws <;> simp_all

/-- Whatever the working words are, a round leaves N of them. -/
theorem round_length (s : State) (d : Nat) :
    (s.round d).v.length = s.variant.words := by
  unfold State.round
  split <;> simp [State.permute, State.mixLayer, State.inject]

theorem unround_length (s : State) (d : Nat) :
    (s.unround d).v.length = s.variant.words := by
  unfold State.unround
  split <;> simp [State.uninject, State.unmixLayer, State.unpermute, unmixWords_length, subWords]

theorem rounds_length (n : Nat) {s : State} (h : s.v.length = s.variant.words) :
    (State.rounds n s).v.length = s.variant.words := by
  induction n generalizing s with
  | zero => exact h
  | succ n ih =>
    have hv : ((s.round s.d).setD (s.d + 1)).variant = s.variant := (round_sameButWorking s s.d).variant
    exact (ih (by rw [hv]; exact round_length s s.d)).trans (congrArg Variant.words hv)

theorem unrounds_length (n : Nat) {s : State} (h : s.v.length = s.variant.words) :
    (State.unrounds n s).v.length = s.variant.words := by
  induction n generalizing s with
  | zero => exact h
  | succ n ih =>
    have hv : ((s.setD (s.d - 1)).unround (s.d - 1)).variant = s.variant :=
      (unround_sameButWorking _ _).variant
    exact (ih (by rw [hv]; exact unround_length _ _)).trans (congrArg Variant.words hv)

/-- The block that ENCRYPT delivers has N words. -/
theorem encryptBlock_length (v : Variant) (ek : List Word) (et : ExpandedTweak) (b : List Word)
    (h : b.length = v.words) : (encryptBlock v ek et b).length = v.words := by
  have hl := rounds_length (roundCount v) (s := ((State.holding v ek et).setV b).setD 0) h
  have hv := (rounds_sameButWorking (roundCount v) (((State.holding v ek et).setV b).setD 0)).variant
  change (addWords _ _).length = _
  rw [addWords, List.length_zipWith, State.subkey_length]
  change min (State.rounds (roundCount v) (((State.holding v ek et).setV b).setD 0)).v.length
    (State.rounds (roundCount v) (((State.holding v ek et).setV b).setD 0)).variant.words = v.words
  rw [hl, hv]
  exact Nat.min_self _

/-- The block that DECRYPT delivers has N words. -/
theorem decryptBlock_length (v : Variant) (ek : List Word) (et : ExpandedTweak) (b : List Word)
    (h : b.length = v.words) : (decryptBlock v ek et b).length = v.words := by
  refine unrounds_length (roundCount v)
    (s := (((State.holding v ek et).setV b).setD (roundCount v)).uninject (roundCount v / 4)) ?_
  change (subWords b _).length = v.words
  rw [subWords, List.length_zipWith, State.subkey_length, h]
  exact Nat.min_self _

end Sys2Proof.Machine
end

