-- ==== Sys2Proof/Laws/Step.lean ====
section
/-! SUPPORT. Everything a step can do, said once; and what a response, once given, stays. -/

namespace Sys2Proof.Machine

open Sys2Proof.Safety

/-- What each fetched thing makes of a step. -/
theorem step_of_fetch {s : State} {f : Fetched} (h : fetch s.port = f) : step s = perform f s := by
  rw [step, performNext, h]

/-- Everything a step that answers a next state can do: wait, carry out a command, raise `IllegalCommand`, or reset. -/
theorem step_next_cases {s t : State} (h : step s = .next t) :
    (fetch s.port = .waiting ∧ t = s)
      ∨ (∃ i rest, fetch s.port = .command i rest ∧ exec i (s.setPort rest) = .next t)
      ∨ (∃ why rest, fetch s.port = .illegal why rest ∧ t = (s.setPort rest).raise .illegalCommand)
      ∨ (∃ rest, fetch s.port = .reset rest ∧ t = (s.setPort rest).resetEvent) := by
  rw [step, performNext] at h
  cases hf : fetch s.port with
  | waiting =>
    rw [hf] at h
    exact .inl ⟨rfl, (Host.Outcome.next.inj h).symm⟩
  | command i rest =>
    rw [hf] at h
    exact .inr (.inl ⟨i, rest, rfl, h⟩)
  | illegal why rest =>
    rw [hf] at h
    exact .inr (.inr (.inl ⟨why, rest, rfl, (Host.Outcome.next.inj h).symm⟩))
  | reset rest =>
    rw [hf] at h
    exact .inr (.inr (.inr ⟨rest, rfl, (Host.Outcome.next.inj h).symm⟩))
  | overlapped => rw [hf] at h; cases h
  | strayBeat => rw [hf] at h; cases h

/-- The response of a command: its status, and its output payload when that is `OK`. -/
def responseOf : Instr → State → Response
  | .setkey p, s => ⟨setkeyStatus s.variant p.length, []⟩
  | .settweak tp p, _ => ⟨settweakStatus tp p.length, []⟩
  | .encrypt p, s =>
    if blockStatus s.variant p.length = .ok then
      ⟨.ok, storeWords (encryptBlock s.variant s.ek s.et (loadWords s.variant.words p))⟩
    else ⟨blockStatus s.variant p.length, []⟩
  | .decrypt p, s =>
    if blockStatus s.variant p.length = .ok then
      ⟨.ok, storeWords (decryptBlock s.variant s.ek s.et (loadWords s.variant.words p))⟩
    else ⟨blockStatus s.variant p.length, []⟩
  | .blksize p, s =>
    if blksizeStatus p.length = .ok then ⟨.ok, wordBytes (BitVec.ofNat 64 (blockBytes s.variant))⟩
    else ⟨blksizeStatus p.length, []⟩

/-- Every command answers a next state with exactly one response more. -/
theorem exec_responses (i : Instr) (s : State) :
    ∃ t, exec i s = .next t ∧ t.responses = s.responses ++ [responseOf i s] := by
  rcases exec_cases i s with ⟨h, he⟩ | ⟨h, he⟩
  · refine ⟨_, he, ?_⟩
    cases i <;> simp only [statusOf] at h
    case encrypt p =>
      simp [effectOf, responseOf, h, encryptCore_v, (encryptCore_sameButWorking s _).responses]
    case decrypt p =>
      simp [effectOf, responseOf, h, decryptCore_v, (decryptCore_sameButWorking s _).responses]
    all_goals simp [effectOf, responseOf, h]
  · refine ⟨_, he, ?_⟩
    cases i <;> simp only [statusOf] at h <;> simp [responseOf, statusOf, h]

/-- A step that answers a next state keeps the responses given before it. -/
theorem step_keeps_responses {s t : State} (h : step s = .next t) : s.responses <+: t.responses := by
  rcases step_next_cases h with ⟨-, rfl⟩ | ⟨i, rest, -, he⟩ | ⟨_, rest, -, rfl⟩ | ⟨rest, -, rfl⟩
  · exact List.prefix_refl _
  · obtain ⟨u, hu, hr⟩ := exec_responses i (s.setPort rest)
    rw [he] at hu
    cases hu
    rw [hr]
    exact List.prefix_append _ _
  · simp
  · simp

/-- New responses are what stands after the old ones. -/
theorem newResponses_of_append {s t : State} {rs : List Response} (h : t.responses = s.responses ++ rs) :
    newResponses s t = rs := by
  simp [newResponses, h]

end Sys2Proof.Machine
end

