-- ==== Sys2Proof/Tests/Slice0.lean ====
section
/-! SUPPORT. The model's own tests. Expected values are written out from spec/30_encoding.md, spec/60_exceptions.md and
spec/95_test_vectors.md, none from the model. After them, for each statement with hypotheses, a theorem that shows
concrete states and operands meeting them. -/

namespace Sys2Proof.Tests

open Sys2Proof Sys2Proof.Machine Sys2Proof.Safety

/-! ### Patterns of spec/95_test_vectors.md -/

/-- The sequential key: byte i is `0x10 + i`. -/
def keyBytes (n : Nat) : List Byte := (List.range n).map fun i => BitVec.ofNat 8 (0x10 + i)

/-- The sequential tweak: bytes `00 01 ... 0F`. -/
def tweakBytes : List Byte := (List.range 16).map (BitVec.ofNat 8)

/-- The sequential block: byte i is `0xFF - i`. -/
def blockOf (n : Nat) : List Byte := (List.range n).map fun i => BitVec.ofNat 8 (0xFF - i)

def zeros (n : Nat) : List Byte := List.replicate n 0

/-- An instance after reset with events at its port. -/
def presented (v : Variant) (es : List PortEvent) : State := (State.resetOf v).setPort es

/-- The next state of an outcome, if it has one. -/
def nextOf : Host.Outcome State Fault Refusal → Option State
  | .next t => some t
  | .fault _ => none
  | .refused _ => none

/-- The response a step gives last. -/
def lastResponse (s : State) : Option Response := (nextOf (step s)).bind fun t => t.responses.getLast?

/-- An instance with the sequential key and tweak. -/
def sequential (v : Variant) : State :=
  after (.settweak true tweakBytes) (after (.setkey (keyBytes (8 * v.words))) (State.resetOf v))

/-- An instance with the zero key. -/
def zeroKeyed (v : Variant) : State := after (.setkey (zeros (8 * v.words))) (State.resetOf v)

/-- The ciphertext words of the sequential vectors: sections 2.5, 2.6 and 2.7. -/
def sequentialCipher : Variant → List Word
  | .tf256 =>
    [0xDF8FEA0EFF91D0E0, 0xD50AD82EE69281C9, 0x76F48D58085D869D, 0xDF975E95B5567065]
  | .tf512 =>
    [0x2C5AD426964304E3, 0x9A2436D6D8CA01B4, 0xDD456DB00E333863, 0x794725970EB9368B, 0x043546998D0A2A27,
       0x25A7C918EA204478, 0x346201A1FEDF11AF, 0x3DAF1C5C3D672789]
  | .tf1024 =>
    [0xB0C33CD7DB4D65A6, 0xBC49A85A1077D75D, 0x6855FCAFEA7293E4, 0x1C5385AB1B7754D2, 0x30E4AAFFE780F794,
       0xE1BBEE708CAFD8D5, 0x9CA837B7423B0F76, 0xBD1403670D4963B3, 0x451F2E3CE61EA48A, 0xB360832F9277D4FB,
       0x0AAFC7A65E12D688, 0xC8906E79016D05D7, 0xB316570A15F41333, 0x74E98A2869F5D50E, 0x57CE6F9247432BCE,
       0xDE7CDD77215144DE]

/-- The ciphertext words of the zero block in the reset state: section 2.10. -/
def resetCipher : Variant → List Word
  | .tf256 =>
    [0x371874738132E3A8, 0xC22CEBDA4F170CEA, 0xB38DEA9F4A991BCD, 0xE5008B9712E57697]
  | .tf512 =>
    [0x3A9B4B87FF15019C, 0xD6F4453B1D82188A, 0xA29BEE4AF7CA8E55, 0x403946964540625A, 0x5F4D3ACCCD72821E,
       0xD323367B90454B19, 0xFBC35235413596A3, 0xD360405912BAD82C]
  | .tf1024 =>
    [0x4BDA44A4A3BB19FC, 0xD3250126B1C43E73, 0x55A6A0CFCE56C137, 0xEB9034B24172BA48, 0x53A937EE665E5607,
       0xF30C9AEE3204001E, 0xD4B3A3A37DC3E6A3, 0x17119CFDA2DF798D, 0xB2AC169C2C2740C9, 0xB7CE28F101B6C0E9,
       0x127C9A9B3FBB31E6, 0x71B47D15129E602F, 0x30F60EF81F2A3B85, 0x923C2EF946375374, 0x897764B9283D700B,
       0xB1E168BFC3E74C74]

/-- The words of the DECRYPT of the zero block under the zero key: section 2.11. -/
def zeroPlain : Variant → List Word
  | .tf256 =>
    [0xADAA62AD1F850D19, 0xF5D78220F6744B6B, 0xFC4D94DA2C29F59F, 0xFB46C01C3CF4D4DA]
  | .tf512 =>
    [0x6E15534033C923A8, 0xD60369B0D1455DC8, 0x0D70B4DB342922AE, 0xF92E9056A0163422, 0xAA8D2CBF3478462B,
       0xFA93DF1FE3445C7D, 0x9C1A394EC3249312, 0xA30915E96D7E2A56]
  | .tf1024 =>
    [0xF863FEE4EB813464, 0x433FFABDC7A2B194, 0x3D4C59FC132D50D6, 0xE6391CB1E3B14958, 0xC8B41B6D70C680C0,
       0x2FE8DB70DF7C8B92, 0x8B2204B54F08F0C5, 0x35630AE612B4ED86, 0x55D21A6BC38EBF01, 0xA8DB6A0AFDF42786,
       0x8080012ED42428F7, 0xE1F57C98C175E2BD, 0xDC742D697E5D6B51, 0x3209AC2615718F48, 0x503C92434BA19C96,
       0xAFE7C7F6D5FE99F2]

/-! ### WellFormed: one ill-formed term for each check (rule R63: "Lengths above 255 bytes cannot be spelled") -/

theorem test_wf_setkey_256_bytes : WellFormed (.setkey (zeros 256)) = false := by decide +kernel
theorem test_wf_settweak_256_bytes : WellFormed (.settweak true (zeros 256)) = false := by decide +kernel
theorem test_wf_encrypt_256_bytes : WellFormed (.encrypt (zeros 256)) = false := by decide +kernel
theorem test_wf_decrypt_256_bytes : WellFormed (.decrypt (zeros 256)) = false := by decide +kernel
theorem test_wf_blksize_256_bytes : WellFormed (.blksize (zeros 256)) = false := by decide +kernel
theorem test_wf_255_bytes : WellFormed (.setkey (zeros 255)) = true := by decide +kernel

/-! ### Decoding: headers written bit by bit, `op rsv tp len` (rules R61 and R62) -/

theorem test_decode_setkey (p : List Byte) : decode 0b0001000000100000#16 p = .ok (.setkey p) := rfl
theorem test_decode_settweak (p : List Byte) : decode 0b0010000100010000#16 p = .ok (.settweak true p) := rfl
theorem test_decode_settweak_none : decode 0b0010000000000000#16 [] = .ok (.settweak false []) := rfl
theorem test_decode_encrypt (p : List Byte) : decode 0b0011000000100000#16 p = .ok (.encrypt p) := rfl
theorem test_decode_decrypt (p : List Byte) : decode 0b0100000010000000#16 p = .ok (.decrypt p) := rfl
theorem test_decode_blksize : decode 0b0101000000000000#16 [] = .ok (.blksize []) := rfl

/-- Illegal headers of section 2.14: `op` 0, 6 and 15, `rsv` 001 and 100, `tp` on another command. -/
theorem test_decode_illegal :
    [0x0000, 0x6000, 0xF0FF, 0x3220, 0x1820, 0x3120, 0x1120, 0x5100, 0x2310, 0x3240].map decodeHeader
      = [.error .reservedOp, .error .reservedOp, .error .reservedOp, .error .reservedBits, .error .reservedBits,
         .error .tweakBit, .error .tweakBit, .error .tweakBit, .error .reservedBits, .error .reservedBits] := by decide

/-- Header examples of rule R70 and section 3: what a line presents. -/
theorem test_assembler_headers :
    ((AsmLine.setkey [0, 0, 0, 0]).events .tf256).head? = some (.header 0x1020)
      ∧ (AsmLine.settweak (some (0x0706050403020100, 0x0F0E0D0C0B0A0908))).events .tf256
          = [.header 0x2110, .beat 0x0706050403020100, .beat 0x0F0E0D0C0B0A0908]
      ∧ (AsmLine.settweak none).events .tf512 = [.header 0x2000]
      ∧ ((AsmLine.decryptB (zeros 128)).events .tf1024).length = 17
      ∧ ((AsmLine.setkeyB (keyBytes 33)).events .tf256).getLast? = some (.beat 0x30)
      ∧ AsmLine.blksize.events .tf256 = [.header 0x5000] := by decide +kernel

/-- Rule R71: `NEW` of a 33-byte key presents no SETTWEAK. Rule R63: a key of 288 bytes is presented with `len = 255`, in
32 beats. -/
theorem test_assembler_bad_keys :
    (AsmLine.newInstanceB (keyBytes 33) (some (1, 2))).events .tf256 = .reset :: presentRaw 0x1021 (keyBytes 33)
      ∧ (AsmLine.setkeyB (zeros 288)).events .tf256 = presentRaw 0x10FF (zeros 255)
      ∧ ((AsmLine.setkey (List.replicate 36 0)).events .tf256).length = 33 := by decide +kernel

/-! ### Words and payloads (rules R40 and R66) -/

theorem test_word_bytes : wordBytes 0x94EEEA8B1F2ADA84 = [0x84, 0xDA, 0x2A, 0x1F, 0x8B, 0xEA, 0xEE, 0x94] := by decide
theorem test_mem_read : memRead tweakBytes 8 = 0x0F0E0D0C0B0A0908 := by decide

/-! ### Arithmetic and the engine's steps (sections 2.1, 2.2 and 2.5) -/

theorem test_rotations :
    rotl64 0x0123456789ABCDEF 59 = 0x78091A2B3C4D5E6F ∧ rotr64 0x0123456789ABCDEF 59 = 0x2468ACF13579BDE0
      ∧ rotl64 0x0123456789ABCDEF 63 = 0x8091A2B3C4D5E6F7 ∧ rotr64 1 1 = 0x8000000000000000 := by decide

theorem test_mix :
    mixPair 0xFFFFFFFFFFFFFFFF 0xFFFFFFFFFFFFFFFF 32 = (0xFFFFFFFFFFFFFFFE, 1)
      ∧ mixPair 0x0123456789ABCDEF 0xFEDCBA9876543210 57 = (0xFFFFFFFFFFFFFFFF, 0xDE02468ACF13579B)
      ∧ unmixPair 0x272625242322211E 0xA26321E0A761E4DB 14 = (0x101010101010100F, 0x171615141312110F) := by decide

theorem test_permute :
    permuteWords (perm .tf512) [0, 1, 2, 3, 4, 5, 6, 7] = [2, 1, 4, 7, 6, 5, 0, 3]
      ∧ permuteWords (perm .tf1024) [0, 1, 2, 3, 4, 5, 6, 7, 8, 9, 10, 11, 12, 13, 14, 15]
          = [0, 9, 2, 13, 6, 11, 4, 15, 10, 7, 12, 3, 14, 5, 8, 1]
      ∧ permuteWords (invPerm .tf1024) [0, 1, 2, 3, 4, 5, 6, 7, 8, 9, 10, 11, 12, 13, 14, 15]
          = [0, 15, 2, 11, 6, 13, 4, 9, 14, 1, 8, 5, 10, 3, 12, 7] := by decide

/-- SUBKEY(18) of the sequential N=4 vector, and the state after round 0 of the N=16 one. -/
theorem test_subkey_and_round :
    (sequential .tf256).subkey 18
        = [0x2F2E2D2C2B2A2928, 0x22D720DEACFE1B22, 0x262422201E1C1A18, 0x1F1E1D1C1B1A192A]
      ∧ (((sequential .tf1024).setV (loadWords 16 (blockOf 128))).round 0).v
          = [0x202020202020201E, 0x3030303030302F0E, 0x202020202020201E, 0x6222E1A060E7E49B,
             0x202020202020201E, 0x00000000003E003E, 0x202020202020201E, 0x2D2C2CCE29282B24,
             0x202020202020201E, 0x2827A82828282816, 0x272625242322211E, 0x222222222221C21C,
             0x2F2E2D2C2B2A2926, 0x3030303030302F0E, 0x202020202020201E, 0x303030302F30300E] := by decide +kernel

/-! ### The commands -/

/-- Section 2.3: the parity word of `[1, 2, 4, 8, 0, ...]`. -/
theorem test_setkey_parity :
    (after (.setkey (storeWords [1, 2, 4, 8, 0, 0, 0, 0])) (State.resetOf .tf512)).ek
      = [1, 2, 4, 8, 0, 0, 0, 0, 0x1BD11BDAA9FC1A2D] := by decide +kernel

/-- Section 2.14: a Threefish-512 key on a Threefish-256 instance. -/
theorem test_setkey_of_another_variant :
    responsesTo (.setkey (keyBytes 64)) (sequential .tf256) = [⟨.invalidKeySize, []⟩]
      ∧ (after (.setkey (keyBytes 64)) (sequential .tf256)).ek = (sequential .tf256).ek := by decide +kernel

theorem test_settweak :
    (sequential .tf256).et = ⟨0x0706050403020100, 0x0F0E0D0C0B0A0908, 0x0808080808080808⟩
      ∧ (after (.settweak false []) (sequential .tf256)).et = ⟨0, 0, 0⟩ := by decide +kernel

/-- Section 2.14: `0x2010` with 16 bytes, and `0x2100` with none. -/
theorem test_settweak_bad_pairs :
    responsesTo (.settweak false tweakBytes) (sequential .tf256) = [⟨.precondition, []⟩]
      ∧ responsesTo (.settweak true []) (sequential .tf256) = [⟨.precondition, []⟩] := by decide +kernel

theorem test_encrypt_sequential : ∀ v ∈ [Variant.tf256, .tf512, .tf1024],
    responsesTo (.encrypt (blockOf (8 * v.words))) (sequential v) = [⟨.ok, storeWords (sequentialCipher v)⟩] := by
  decide +kernel

theorem test_encrypt_in_reset_state : ∀ v ∈ [Variant.tf256, .tf512, .tf1024],
    responsesTo (.encrypt (zeros (8 * v.words))) (State.resetOf v) = [⟨.ok, storeWords (resetCipher v)⟩] := by
  decide +kernel

theorem test_decrypt_sequential : ∀ v ∈ [Variant.tf256, .tf512, .tf1024],
    responsesTo (.decrypt (storeWords (sequentialCipher v))) (sequential v)
      = [⟨.ok, blockOf (8 * v.words)⟩] := by decide +kernel

theorem test_decrypt_zero_block : ∀ v ∈ [Variant.tf256, .tf512, .tf1024],
    responsesTo (.decrypt (zeros (8 * v.words))) (zeroKeyed v) = [⟨.ok, storeWords (zeroPlain v)⟩] := by
  decide +kernel

theorem test_blksize :
    responsesTo (.blksize []) (State.resetOf .tf1024) = [⟨.ok, [0x80, 0, 0, 0, 0, 0, 0, 0]⟩]
      ∧ responsesTo (.blksize (zeros 8)) (State.resetOf .tf256) = [⟨.precondition, []⟩] := by decide

/-- Rule R144's example at the port: response `OK` and the beat `0x40`. -/
theorem test_blksize_beat :
    (after (.blksize []) (State.resetOf .tf512)).output = [.status 0x0, .beat 0x0000000000000040] := by decide

/-- The source's known answer, at the port: section 2.9, N=4. -/
theorem test_known_answer_at_the_port :
    lastResponse ((zeroKeyed .tf256).present (presentRaw 0x3020 (zeros 32))) = some ⟨.ok, [0x84, 0xDA, 0x2A, 0x1F, 0x8B, 0xEA, 0xEE, 0x94, 0x70, 0x66, 0xAE, 0x3E, 0x31, 0x03, 0xF1, 0xAD,
        0x53, 0x6D, 0xB1, 0xF4, 0xA1, 0x19, 0x24, 0x95, 0x11, 0x6B, 0x9F, 0x3C, 0xE6, 0x13, 0x3F, 0xD8]⟩ := by
  decide +kernel

/-- Rule R150, at the port. -/
theorem test_odd_key_size_at_the_port :
    nextOf (step (presented .tf512 (presentRaw 0x103F (keyBytes 63)))) = some ((State.resetOf .tf512).raise .invalidKeySize) := by
  decide +kernel

/-- Rules R65 and R166: an illegal header's payload is taken too. -/
theorem test_illegal_header_at_the_port :
    nextOf (step (presented .tf256 (presentRaw 0xF0FF (zeros 255) ++ [.reset])))
      = some ((presented .tf256 [.reset]).raise .illegalCommand) := by decide +kernel

/-- Rule R68: the codes. -/
theorem test_status_codes :
    [Status.ok, .invalidKeySize, .precondition, .illegalCommand].map Status.code = [0, 1, 2, 3] := by decide

/-! ### Witnesses: concrete states and operands that meet the hypotheses of each statement, at boundaries where a
hypothesis has a range -/

theorem witness_DecodeInvertsEncode :
    WellFormed (.settweak true (zeros 255)) = true ∧ WellFormed (.blksize []) = true := by decide +kernel

/-- The lanes past the end of a 33-byte payload hold anything. -/
theorem witness_EncodeInvertsDecode :
    ([1, 2, 3, 4, 0xFFFFFFFFFFFFFF30] : List Word).length = beatCount (lenField 0x1021)
      ∧ fetch (.header 0x1021 :: (([1, 2, 3, 4, 0xFFFFFFFFFFFFFF30] : List Word).map .beat ++ [.reset]))
          = .command (.setkey (storeWords [1, 2, 3, 4] ++ [0x30])) [.reset] := by decide

theorem witness_HeaderClasses_illegal :
    illegal 0x0000 ∧ illegal 0x6000 ∧ illegal 0xFFFF ∧ illegal 0x1200 ∧ illegal 0x2800 ∧ illegal 0x1100 ∧ illegal 0x3100 := by
  simp only [illegal]
  decide

theorem witness_HeaderClasses_legal :
    (¬ illegal 0x10FF ∧ (0x10FF : Header).toNat / 2 ^ 12 = 1) ∧ (¬ illegal 0x21FF ∧ (0x21FF : Header).toNat / 2 ^ 12 = 2)
      ∧ (¬ illegal 0x2000 ∧ (0x2000 : Header).toNat / 2 ^ 12 = 2) ∧ (¬ illegal 0x3000 ∧ (0x3000 : Header).toNat / 2 ^ 12 = 3)
      ∧ (¬ illegal 0x40FF ∧ (0x40FF : Header).toNat / 2 ^ 12 = 4)
      ∧ ¬ illegal 0x5000 ∧ (0x5000 : Header).toNat / 2 ^ 12 = 5 := by
  simp only [illegal]
  decide

theorem witness_HeaderClasses_decoded : decode 0x1021 (keyBytes 33) = .ok (.setkey (keyBytes 33)) := rfl

theorem witness_OpcodeTableRows :
    (⟨.settweak, 0x2000, 0xFE00⟩ : OpRow) ∈ opTable ∧ OpRow.spells ⟨.settweak, 0x2000, 0xFE00⟩ 0x21FF = true
      ∧ ∀ r ∈ opTable, r.spells 0x2200 = false := by decide

theorem witness_OkHeadersInFull :
    (tweakBytes.length = lenField 0x2110 ∧ presentedStatus .tf256 0x2110 tweakBytes = .ok)
      ∧ ((zeros 128).length = lenField 0x4080 ∧ presentedStatus .tf1024 0x4080 (zeros 128) = .ok)
      ∧ (zeros 128).length = lenField 0x4080 ∧ presentedStatus .tf512 0x4080 (zeros 128) = .precondition := by
  decide +kernel

theorem witness_PayloadTravelsInBeats :
    (([1, 2, 3, 4, 5] : List Word).length = (33 + 7) / 8 ∧ 8 * 0 + 0 < 33 ∧ 8 * 3 + 7 < 33 ∧ 8 * 4 + 0 < 33)
      ∧ ([] : List Word).length = (0 + 7) / 8
      ∧ ∃ t r, step (presented .tf256 (encode (.blksize []))) = .next t
          ∧ r ∈ newResponses (presented .tf256 (encode (.blksize []))) t :=
  ⟨by decide, by decide, _, _, rfl, List.mem_singleton.2 rfl⟩

theorem witness_WordsAreLittleEndian :
    (3 < ([1, 2, 3, 4] : List Word).length ∧ 0 < ([1, 2, 3, 4] : List Word).length) ∧ (keyBytes 128).length = 8 * 16 := by
  decide +kernel

/-- A whole presentation on a state that a run can reach. -/
theorem witness_StepRunsDecodedCommand :
    ((sequential .tf512).setPort (presentRaw 0x1021 (keyBytes 33) ++ [.reset])).port
        = .header 0x1021 :: ((packBeats (keyBytes 33)).map .beat ++ [.reset])
      ∧ (packBeats (keyBytes 33)).length = beatCount (lenField 0x1021)
      ∧ decode 0x1021 (unpackBeats (lenField 0x1021) (packBeats (keyBytes 33))) = .ok (.setkey (keyBytes 33)) := by
  refine ⟨rfl, ?_, rfl⟩
  decide +kernel

/-- An illegal header with its payload. -/
theorem witness_EveryPresentationIsAnswered :
    (presented .tf256 (.header 0xF009 :: (([1, 2] : List Word).map .beat ++ [.reset]))).port
        = .header 0xF009 :: (([1, 2] : List Word).map .beat ++ [.reset])
      ∧ ([1, 2] : List Word).length = beatCount (lenField 0xF009) := ⟨rfl, rfl⟩

/-- No beat, and all beats but one, of a one-block ENCRYPT. -/
theorem witness_OverlappedPresentationHasNoStep :
    ([] : List Word).length < beatCount (lenField 0x3020) ∧ ([1, 2, 3] : List Word).length < beatCount (lenField 0x3020)
      ∧ (presented .tf256 (.header 0x3020 :: (([1, 2, 3] : List Word).map .beat ++ .header 0x5000 :: []))).port
          = .header 0x3020 :: (([1, 2, 3] : List Word).map .beat ++ .header 0x5000 :: [])
      ∧ (presented .tf256 [.beat 7, .reset]).port = .beat 7 :: [.reset]
      ∧ (presented .tf256 (.header 0x3020 :: ([] : List Word).map .beat)).port
          = .header 0x3020 :: ([] : List Word).map .beat := ⟨by decide, by decide, rfl, rfl, rfl⟩

theorem witness_ResetFromAnyState :
    ((sequential .tf256).setPort [.reset, .header 0x5000]).port = .reset :: [.header 0x5000]
      ∧ ([1, 2, 3] : List Word).length < beatCount (lenField 0x1020)
      ∧ ((sequential .tf256).setPort (.header 0x1020 :: (([1, 2, 3] : List Word).map .beat ++ [.reset]))).port
          = .header 0x1020 :: (([1, 2, 3] : List Word).map .beat ++ .reset :: []) := ⟨rfl, by decide, rfl⟩

theorem witness_ResetIsNotTheZeroKey : zeros 128 = List.replicate (8 * Variant.tf1024.words) 0 := rfl

theorem witness_InvalidKeySizeExactly :
    (keyBytes 64).length ≠ 8 * (sequential .tf256).variant.words
      ∧ ∃ t r, step (presented .tf256 (encode (.setkey []))) = .next t
          ∧ r ∈ newResponses (presented .tf256 (encode (.setkey []))) t ∧ r.status = .invalidKeySize :=
  ⟨by decide +kernel, _, _, rfl, List.mem_singleton.2 rfl, rfl⟩

theorem witness_PreconditionExactly :
    (zeros 31).length ≠ 8 * (State.resetOf .tf256).variant.words
      ∧ (¬ (false = true ∧ tweakBytes.length = 16) ∧ ¬ (false = false ∧ tweakBytes.length = 0))
      ∧ (¬ (true = true ∧ ([] : List Byte).length = 16) ∧ ¬ (true = false ∧ ([] : List Byte).length = 0))
      ∧ (zeros 1).length ≠ 0
      ∧ ∃ t r, exec (.blksize (zeros 1)) (State.resetOf .tf256) = .next t
          ∧ r ∈ newResponses (State.resetOf .tf256) t ∧ r.status = .precondition :=
  ⟨by decide, by decide, by decide, by decide, _, _, rfl, List.mem_singleton.2 rfl, rfl⟩

/-- An illegal header, a SETKEY of a wrong and of the right length, and another command. -/
theorem witness_ChecksInOrder :
    ((zeros 33).length = lenField 0x1221 ∧ (presented .tf256 (presentRaw 0x1221 (zeros 33) ++ [])).port
        = presentRaw 0x1221 (zeros 33) ++ [])
      ∧ ((zeros 33).length = lenField 0x1021 ∧ ¬ illegal 0x1021 ∧ (0x1021 : Header).toNat / 2 ^ 12 = 1)
      ∧ ((zeros 32).length = lenField 0x1020 ∧ ¬ illegal 0x1020 ∧ (0x1020 : Header).toNat / 2 ^ 12 = 1)
      ∧ ((zeros 8).length = lenField 0x5008 ∧ decode 0x5008 (zeros 8) = .ok (.blksize (zeros 8))
        ∧ ∀ q, Instr.blksize (zeros 8) ≠ .setkey q) := by
  simp only [illegal]
  exact ⟨⟨by decide, rfl⟩, by decide, by decide, by decide, rfl, by simp⟩

theorem witness_RaisingChangesNothing :
    (zeros 8).length = lenField 0x2108
      ∧ ((sequential .tf256).setPort (presentRaw 0x2108 (zeros 8) ++ [.header 0x5000])).port
          = presentRaw 0x2108 (zeros 8) ++ [.header 0x5000]
      ∧ presentedStatus .tf256 0x2108 (zeros 8) = .precondition ∧ presentedStatus .tf256 0x6000 [] = .illegalCommand
      ∧ presentedStatus .tf256 0x1000 [] = .invalidKeySize := ⟨by decide, rfl, by decide, by decide, by decide⟩

theorem witness_StatusIsNotKept :
    (statusOf .tf256 (.encrypt (zeros 64)) ≠ .ok
      ∧ (∃ t, exec (.encrypt (zeros 64)) (sequential .tf256) = .next t)
      ∧ ∃ u, exec (.decrypt (zeros 32)) (sequential .tf256) = .next u)
    ∧ (keyBytes 33).length ≠ 8 * (State.resetOf .tf256).variant.words
    ∧ (zeros 32).length = 8 * (State.resetOf .tf256).variant.words :=
  ⟨⟨by decide, ⟨_, rfl⟩, _, rfl⟩, by decide, by decide⟩

theorem witness_ContractViolationsFaultARun :
    ((zeros 8).length = lenField 0x5008 ∧ presentedStatus .tf256 0x5008 (zeros 8) = .precondition)
      ∧ ((zeros 8).length = lenField 0x7008 ∧ presentedStatus .tf256 0x7008 (zeros 8) = .illegalCommand)
      ∧ ((zeros 0).length = lenField 0x5000 ∧ presentedStatus .tf256 0x5000 (zeros 0) = .ok)
      ∧ ((zeros 8).length = lenField 0x1008 ∧ presentedStatus .tf256 0x1008 (zeros 8) = .invalidKeySize)
      ∧ (presented .tf256 (presentRaw 0x5008 (zeros 8) ++ [])).port = presentRaw 0x5008 (zeros 8) ++ [] :=
  ⟨by decide, by decide, by decide, by decide, rfl⟩

theorem witness_FaultedRunsStayFaulted :
    (∃ t, step ((presented .tf256 []).raise .precondition) = .next t
      ∧ faulted ((presented .tf256 []).raise .precondition) = true)
    ∧ ∃ t, checkedStep (presented .tf256 (encode (.blksize []))) = .next t
      ∧ faulted (presented .tf256 (encode (.blksize []))) = false := ⟨⟨_, rfl, rfl⟩, _, rfl, rfl⟩

/-- The invariant holds in a state with a key and a tweak, and a command stands at its port. -/
theorem witness_StepKeepsInvariant :
    ∃ t, invariant ((sequential .tf256).setPort (encode (.encrypt (blockOf 32))))
      ∧ step ((sequential .tf256).setPort (encode (.encrypt (blockOf 32)))) = .next t := by
  refine ⟨_, ⟨⟨?_, ?_, ?_⟩, ?_, .inr ?_⟩, rfl⟩
  · decide +kernel
  · decide +kernel
  · decide +kernel
  · decide +kernel
  · simp only [keyed]
    decide +kernel

theorem witness_OnlyWritersOfTheRegisterFiles :
    (∃ t, step (presented .tf256 (encode (.setkey (zeros 32)))) = .next t
      ∧ t.ek ≠ (presented .tf256 (encode (.setkey (zeros 32)))).ek)
    ∧ ∃ t, step (presented .tf256 (encode (.settweak true tweakBytes))) = .next t
      ∧ t.et ≠ (presented .tf256 (encode (.settweak true tweakBytes))).et :=
  ⟨⟨_, rfl, by decide +kernel⟩, _, rfl, by decide +kernel⟩

theorem witness_KeyedCanBeReadOffEk :
    ((keyBytes 32).length = 8 * (State.resetOf .tf256).variant.words
      ∧ ∃ t, exec (.setkey (keyBytes 32)) (State.resetOf .tf256) = .next t)
    ∧ ∃ t, step (presented .tf256 (encode (.blksize []))) = .next t
      ∧ t.ek = (presented .tf256 (encode (.blksize []))).ek := ⟨⟨by decide +kernel, _, rfl⟩, _, rfl, rfl⟩

theorem witness_FrameOfEachCommand :
    (∃ t, exec (.setkey (keyBytes 32)) (sequential .tf256) = .next t)
      ∧ (∃ t, exec (.settweak true tweakBytes) (sequential .tf256) = .next t)
      ∧ (∃ t, exec (.encrypt (zeros 32)) (sequential .tf256) = .next t)
      ∧ (∃ t, exec (.decrypt (zeros 31)) (sequential .tf256) = .next t ∧ statusOf .tf256 (.decrypt (zeros 31)) ≠ .ok)
      ∧ ∃ t, exec (.blksize []) (sequential .tf256) = .next t :=
  ⟨⟨_, rfl⟩, ⟨_, rfl⟩, ⟨_, rfl⟩, ⟨_, rfl, by decide⟩, _, rfl⟩

theorem witness_SetkeyCompletes :
    (keyBytes 32).length = 8 * (State.resetOf .tf256).variant.words
      ∧ (keyBytes 64).length = 8 * (State.resetOf .tf512).variant.words
      ∧ (keyBytes 128).length = 8 * (State.resetOf .tf1024).variant.words
      ∧ 3 < Variant.tf256.words ∧ 15 < Variant.tf1024.words
      ∧ (keyBytes 31).length ≠ 8 * (State.resetOf .tf256).variant.words ∧ (zeros 255).length ≤ 255
      ∧ (sequential .tf256).variant = .tf256 := by decide +kernel

theorem witness_SettweakCompletes :
    tweakBytes.length = 16
      ∧ (¬ (true = true ∧ (zeros 8).length = 16) ∧ ¬ (true = false ∧ (zeros 8).length = 0)) := by decide +kernel

theorem witness_KeyScheduleParity :
    ∃ t, exec (.setkey (keyBytes 64)) (State.resetOf .tf512) = .next t
      ∧ statusOf (State.resetOf .tf512).variant (.setkey (keyBytes 64)) = .ok := ⟨_, rfl, by decide +kernel⟩

theorem witness_TweakScheduleParity :
    ∃ t, (presented .tf256 (encode (.settweak true tweakBytes))).et.t2
        = (presented .tf256 (encode (.settweak true tweakBytes))).et.t0
          ^^^ (presented .tf256 (encode (.settweak true tweakBytes))).et.t1
      ∧ step (presented .tf256 (encode (.settweak true tweakBytes))) = .next t := ⟨_, by decide +kernel, rfl⟩

/-- Both commands succeed; and a SETKEY that fails beside a SETTWEAK that succeeds. -/
theorem witness_KeyAndTweakAreIndependent :
    (∃ a b c e, exec (.setkey (keyBytes 32)) (State.resetOf .tf256) = .next a
      ∧ exec (.settweak true tweakBytes) a = .next b
      ∧ exec (.settweak true tweakBytes) (State.resetOf .tf256) = .next c ∧ exec (.setkey (keyBytes 32)) c = .next e
      ∧ statusOf .tf256 (.setkey (keyBytes 32)) = .ok ∧ statusOf .tf256 (.settweak true tweakBytes) = .ok)
    ∧ ∃ a b c e, exec (.setkey (keyBytes 33)) (sequential .tf256) = .next a
      ∧ exec (.settweak true []) a = .next b
      ∧ exec (.settweak true []) (sequential .tf256) = .next c ∧ exec (.setkey (keyBytes 33)) c = .next e
      ∧ statusOf .tf256 (.setkey (keyBytes 33)) ≠ .ok ∧ statusOf .tf256 (.settweak true []) ≠ .ok :=
  ⟨⟨_, _, _, _, rfl, rfl, rfl, rfl, by decide, by decide⟩, _, _, _, _, rfl, rfl, rfl, rfl, by decide, by decide⟩

theorem witness_RotationMovesBits :
    (1 ≤ 1 ∧ 1 ≤ 63 ∧ 0 < 64) ∧ (1 ≤ 63 ∧ 63 ≤ 63 ∧ 63 < 64)
      ∧ [14, 16] ∈ rotTable .tf256 ∧ 14 ∈ [14, 16] := by decide

theorem witness_UnmixInvertsMix : (1 ≤ 1 ∧ 1 ≤ 63) ∧ (1 ≤ 63 ∧ 63 ≤ 63) := by decide

/-- The first and the last pair of the largest variant. -/
theorem witness_PairsMixAlone :
    (sequential .tf1024).v.length = (sequential .tf1024).variant.words
      ∧ 0 < (sequential .tf1024).variant.words / 2 ∧ 7 < (sequential .tf1024).variant.words / 2 := by decide +kernel

theorem witness_PermutationTables : 0 < Variant.tf256.words ∧ 3 < Variant.tf256.words ∧ 15 < Variant.tf1024.words := by
  decide

theorem witness_UnpermuteInvertsPermute :
    (sequential .tf512).v.length = (sequential .tf512).variant.words ∧ 0 < (sequential .tf512).variant.words
      ∧ 7 < (sequential .tf512).variant.words ∧ (sequential .tf256).variant = .tf256 := by decide +kernel

/-- A word of each of the four kinds, N-4 to N-1, and both ends of `EK`. -/
theorem witness_SubkeyWords :
    (0 < Variant.tf256.words ∧ 0 ≠ Variant.tf256.words - 3) ∧ 1 = Variant.tf256.words - 3
      ∧ (2 < Variant.tf256.words ∧ 2 = Variant.tf256.words - 2) ∧ (3 < Variant.tf256.words ∧ 3 = Variant.tf256.words - 1)
      ∧ 0 ≤ Variant.tf256.words ∧ 4 ≤ Variant.tf256.words := by decide

theorem witness_UninjectInvertsInject :
    (sequential .tf256).v.length = (sequential .tf256).variant.words ∧ 3 < (sequential .tf256).variant.words := by
  decide +kernel

/-- The first round, which injects, and the last, which does not. -/
theorem witness_UnroundInvertsRound :
    (sequential .tf256).v.length = (sequential .tf256).variant.words
      ∧ (0 < roundCount (sequential .tf256).variant ∧ 0 % 4 = 0)
      ∧ 71 < roundCount (sequential .tf256).variant ∧ 71 % 4 ≠ 0 := by decide +kernel

theorem witness_DecryptInvertsEncrypt :
    (sequentialCipher .tf256).length = Variant.tf256.words ∧ (sequentialCipher .tf512).length = Variant.tf512.words
      ∧ (sequentialCipher .tf1024).length = Variant.tf1024.words := by decide

theorem witness_EncryptCompletes :
    (blockOf 32).length = 8 * (sequential .tf256).variant.words
      ∧ (blockOf 128).length = 8 * (State.resetOf .tf1024).variant.words := by decide +kernel

theorem witness_DecryptCompletes :
    (blockOf 64).length = 8 * (sequential .tf512).variant.words
      ∧ (blockOf 128).length = 8 * (State.resetOf .tf1024).variant.words := by decide +kernel

/-- Two states with one key and tweak, with another command in between. -/
theorem witness_CommandsInvertEachOther :
    (blockOf 32).length = 8 * (sequential .tf256).variant.words
      ∧ (after (.blksize []) (sequential .tf256)).variant = (sequential .tf256).variant
      ∧ (after (.blksize []) (sequential .tf256)).ek = (sequential .tf256).ek
      ∧ (after (.blksize []) (sequential .tf256)).et = (sequential .tf256).et := by decide +kernel

theorem witness_NewKeyIsUsedAtOnce :
    ∃ a b c, (keyBytes 32).length = 8 * (State.resetOf .tf256).variant.words ∧ tweakBytes.length = 16
      ∧ (blockOf 32).length = 8 * (State.resetOf .tf256).variant.words
      ∧ exec (.setkey (keyBytes 32)) (State.resetOf .tf256) = .next a ∧ exec (.settweak true tweakBytes) a = .next b
      ∧ exec (.encrypt (blockOf 32)) b = .next c :=
  ⟨_, _, _, by decide +kernel, by decide +kernel, by decide +kernel, rfl, rfl, rfl⟩

theorem witness_ReadsHaveNoSideEffect :
    readOnly (.encrypt (zeros 32)) = true ∧ readOnly (.decrypt []) = true ∧ readOnly (.blksize []) = true
      ∧ readOnly (.setkey (zeros 32)) = false ∧ readOnly (.settweak false []) = false := by decide

theorem witness_ReadOnlyCommandsCommute :
    readOnly (.encrypt (zeros 32)) = true ∧ readOnly (.decrypt (zeros 32)) = true ∧ readOnly (.blksize []) = true := by
  decide

/-- Two states that agree, with different working registers and responses, and a command at their port. -/
theorem witness_NoHiddenState :
    ∃ s t s', agree s t ∧ s.v ≠ t.v ∧ s.d ≠ t.d ∧ s.responses ≠ t.responses
      ∧ step s = .next s' :=
  ⟨presented .tf256 (encode (.encrypt (blockOf 32))),
   (((presented .tf256 (encode (.encrypt (blockOf 32)))).setV [1, 2, 3, 4]).setD 7).raise .invalidKeySize,
   _, ⟨rfl, rfl, rfl, rfl⟩, by decide, by decide, by decide, rfl⟩

theorem witness_KeyIsNotReadBack :
    ∃ s' t', (State.resetOf .tf256).variant = (sequential .tf256).variant
      ∧ (∀ p, Instr.blksize [] ≠ .encrypt p) ∧ (∀ p, Instr.blksize [] ≠ .decrypt p)
      ∧ exec (.blksize []) (State.resetOf .tf256) = .next s' ∧ exec (.blksize []) (sequential .tf256) = .next t' :=
  ⟨_, _, by decide +kernel, by simp, by simp, rfl, rfl⟩

theorem witness_BlksizeAnswers :
    (zeros 8).length ≠ 0 ∧ ∃ t, step (presented .tf1024 (encode (.blksize []))) = .next t := ⟨by decide, _, rfl⟩

theorem witness_KeyLengthSelectsVariant :
    (33 ≠ 32 ∧ 33 ≠ 64 ∧ 33 ≠ 128) ∧ (0 ≠ 32 ∧ 0 ≠ 64 ∧ 0 ≠ 128) := by decide

theorem witness_OddKeySizesAreRejected :
    ∀ x ∈ [((0x1021 : Header), 33), (0x103F, 63), (0x1064, 100)],
      (x.1, (keyBytes x.2).length) ∈ [((0x1021 : Header), 33), (0x103F, 63), (0x1064, 100)]
      ∧ (presented .tf1024 (presentRaw x.1 (keyBytes x.2) ++ [])).port = presentRaw x.1 (keyBytes x.2) ++ [] := by
  decide +kernel

theorem witness_ConstructionSetsKeyAndTweak :
    selectVariant (keyBytes 100).length = none ∧ selectVariant (keyBytes 128).length = some .tf1024 := by decide +kernel

/-- A key of the right length in bytes with and without a tweak, and keys of 33 and of 288 bytes. -/
theorem witness_NewLineRebuildsTheInstance :
    (keyBytes 32).length = 8 * (sequential .tf256).variant.words
      ∧ ((sequential .tf256).setPort
          ((AsmLine.newInstanceB (keyBytes 32) (some (1, 2))).events .tf256 ++ [.header 0x5000])).port
        = (AsmLine.newInstanceB (keyBytes 32) (some (1, 2))).events (sequential .tf256).variant ++ [.header 0x5000]
      ∧ ((sequential .tf256).setPort ((AsmLine.newInstanceB (keyBytes 32) none).events .tf256 ++ [])).port
        = (AsmLine.newInstanceB (keyBytes 32) none).events (sequential .tf256).variant ++ []
      ∧ (keyBytes 33).length ≠ 8 * (sequential .tf256).variant.words
      ∧ (zeros 288).length ≠ 8 * (sequential .tf256).variant.words
      ∧ ((sequential .tf256).setPort ((AsmLine.newInstanceB (keyBytes 33) (some (1, 2))).events .tf256 ++ [])).port
        = (AsmLine.newInstanceB (keyBytes 33) (some (1, 2))).events (sequential .tf256).variant ++ [] := by
  decide +kernel

/-- Two instances of different variants, each with a command at its port. -/
theorem witness_InstancesShareNothing :
    ∃ q r, (0 : Nat) ≠ 1
      ∧ Platform.stepAt [presented .tf256 (encode (.setkey (keyBytes 32))), presented .tf512 (encode (.blksize []))] 0
          = .next q
      ∧ Platform.stepAt q 1 = .next r := ⟨_, _, by decide, rfl, rfl⟩

/-- A block for each variant's length rule, and an illegal header with its beat. -/
theorem witness_ResponsesOnThePort :
    (blockOf 32).length = 8 * (sequential .tf256).variant.words
      ∧ ([7] : List Word).length = beatCount (lenField 0x0008)
      ∧ (presented .tf256 (.header 0x0008 :: (([7] : List Word).map .beat ++ [.reset]))).port
        = .header 0x0008 :: (([7] : List Word).map .beat ++ [.reset]) := by decide +kernel

theorem witness_ResponsesOnThePort_illegal : illegal 0x0008 := by
  simp only [illegal]
  decide

/-- The least length that no header can spell, and one that wraps to a valid length. -/
theorem witness_UnspellableCommandsFail :
    (255 < (Instr.setkey (zeros 256)).payload.length ∧ 255 < (Instr.encrypt (zeros 288)).payload.length)
      ∧ (presented .tf256 (encode (.setkey (zeros 288)) ++ [.reset])).port = encode (.setkey (zeros 288)) ++ [.reset] := by
  decide +kernel

theorem witness_PropertiesTheSourceStates :
    (∃ t, (keyBytes 32).length = 8 * Variant.tf256.words ∧ exec (.setkey (keyBytes 32)) (State.resetOf .tf256) = .next t)
      ∧ (∃ t, tweakBytes.length = 16 ∧ exec (.settweak true tweakBytes) (State.resetOf .tf256) = .next t)
      ∧ (∃ t, exec (.settweak false []) (State.resetOf .tf256) = .next t)
      ∧ (blockOf 32).length / 8 = Variant.tf256.words ∧ (sequentialCipher .tf256).length = Variant.tf256.words
      ∧ (keyBytes 33).length ∈ [33, 63, 100] ∧ (keyBytes 100).length ∈ [33, 63, 100]
      ∧ (sequential .tf256).ek = (after (.blksize []) (sequential .tf256)).ek
      ∧ (sequential .tf256).et = (after (.blksize []) (sequential .tf256)).et :=
  ⟨⟨_, by decide +kernel, rfl⟩, ⟨_, by decide +kernel, rfl⟩, ⟨_, rfl⟩, by decide +kernel⟩

end Sys2Proof.Tests
end

section
/-! Proofs of the family 10_state: what the responses of the commands let the host see of `EK` and `ET`. -/

namespace Sys2Proof.Machine

open Sys2Proof.Safety

/-- What the host sees of a command is the one response `responseOf` names. -/
theorem newResponses_of_exec {i : Instr} {s t : State} (h : exec i s = .next t) :
    newResponses s t = [responseOf i s] := by
  obtain ⟨u, hu, hr⟩ := exec_responses i s
  obtain rfl : t = u := Host.Outcome.next.inj (h.symm.trans hu)
  exact newResponses_of_append hr

/-- The response of a command other than ENCRYPT and DECRYPT reads nothing of the state but N (rule R28). -/
theorem responseOf_congr_variant {i : Instr} {s t : State} (hv : s.variant = t.variant)
    (henc : ∀ p, i ≠ .encrypt p) (hdec : ∀ p, i ≠ .decrypt p) : responseOf i s = responseOf i t := by
  cases i with
  | setkey p => simp only [responseOf, hv]
  | settweak tp p => rfl
  | encrypt p => exact absurd rfl (henc p)
  | decrypt p => exact absurd rfl (hdec p)
  | blksize p => simp only [responseOf, hv]

end Sys2Proof.Machine

open Sys2Proof.Machine

/-- Settles O49: each state's new response is `responseOf`, which for these commands is a function of N alone. -/
theorem keyIsNotReadBack : Obligations.KeyIsNotReadBack := by
  unfold Obligations.KeyIsNotReadBack
  intro i s t s' t' hv henc hdec hs ht
  rw [newResponses_of_exec hs, newResponses_of_exec ht, responseOf_congr_variant hv henc hdec]
end

section
/-! Proofs of the family 20_memory: a word is its eight bytes, the least significant first; and the sizes of the
payloads that the commands take and give. -/

namespace Sys2Proof.Machine

open Sys2Proof.Safety

/-- Byte k of a word, in numbers (rule R40). -/
theorem byteOf_toNat (w : Word) (k : Nat) : (byteOf w k).toNat = w.toNat / 2 ^ (8 * k) % 256 := by
  rw [byteOf, BitVec.extractLsb'_toNat, Nat.shiftRight_eq_div_pow]

/-- The first n bytes of a word, byte k weighted by 2^(8k), add up to its low 8n bits (rule R10). -/
theorem sum_byteOf_toNat (w : Word) (n : Nat) :
    ((List.range n).map fun k => (byteOf w k).toNat * 2 ^ (8 * k)).sum = w.toNat % 2 ^ (8 * n) := by
  induction n with
  | zero => simp [Nat.mod_one]
  | succ n ih =>
    have hsplit : w.toNat % 256 ^ (n + 1) = w.toNat % 256 ^ n + 256 ^ n * (w.toNat / 256 ^ n % 256) := Nat.mod_pow_succ
    have hpow (m : Nat) : 2 ^ (8 * m) = 256 ^ m := Nat.pow_mul 2 8 m
    rw [List.range_succ, List.map_append, List.sum_append, ih, List.map_singleton, List.sum_singleton, byteOf_toNat,
      hpow, hpow, hsplit, Nat.mul_comm (256 ^ n)]

/-- A word read from a payload has the little-endian value of its bytes (rules R10 and R40). -/
theorem memRead_toNat (p : List Byte) (off : Nat) : (memRead p off).toNat = littleEndian p off := by
  have hbytes : littleEndian p off = ((List.range 8).map fun k => (byteOf (memRead p off) k).toNat * 2 ^ (8 * k)).sum :=
    congrArg List.sum (List.map_congr_left fun k hk => by rw [byteOf_memRead p off k (List.mem_range.1 hk)])
  rw [hbytes, sum_byteOf_toNat, Nat.mod_eq_of_lt (memRead p off).isLt]

/-- A command's status is `OK` exactly when its payload has the size of rule R42's table. -/
theorem statusOf_ok_iff (v : Variant) (i : Instr) :
    statusOf v i = .ok ↔ i.payload.length = inputBytes v i := by
  cases i with
  | setkey p => exact setkeyStatus_ok_iff v p.length
  | settweak tp p => cases tp <;> simp [statusOf, settweakStatus_ok_iff, inputBytes, Instr.payload]
  | encrypt p => exact blockStatus_ok_iff v p.length
  | decrypt p => exact blockStatus_ok_iff v p.length
  | blksize p => exact blksizeStatus_ok_iff p.length

/-- The response to a command that does not end `OK` is its status and no payload (rule R67). -/
theorem responseOf_of_raise {i : Instr} {s : State} (h : statusOf s.variant i ≠ .ok) :
    responseOf i s = ⟨statusOf s.variant i, []⟩ := by
  cases i with
  | setkey p => rfl
  | settweak tp p => rfl
  | encrypt p => exact if_neg h
  | decrypt p => exact if_neg h
  | blksize p => exact if_neg h

/-- The response to a command that ends `OK` says so, and its payload has the size of rule R42's table. -/
theorem responseOf_of_ok {i : Instr} {s : State} (h : statusOf s.variant i = .ok) :
    (responseOf i s).status = .ok ∧ (responseOf i s).payload.length = outputBytes s.variant i := by
  cases i with
  | setkey p => exact ⟨h, rfl⟩
  | settweak tp p => exact ⟨h, rfl⟩
  | encrypt p =>
    have hr : responseOf (.encrypt p) s =
        ⟨.ok, storeWords (encryptBlock s.variant s.ek s.et (loadWords s.variant.words p))⟩ := if_pos h
    simp [hr, encryptBlock_length, outputBytes]
  | decrypt p =>
    have hr : responseOf (.decrypt p) s =
        ⟨.ok, storeWords (decryptBlock s.variant s.ek s.et (loadWords s.variant.words p))⟩ := if_pos h
    simp [hr, decryptBlock_length, outputBytes]
  | blksize p =>
    have hr : responseOf (.blksize p) s = ⟨.ok, wordBytes (BitVec.ofNat 64 (blockBytes s.variant))⟩ := if_pos h
    simp [hr, outputBytes]

end Sys2Proof.Machine

open Sys2Proof.Machine

/-- Settles O8: byte k of a word is its k-th digit to base 256, and storing and loading only move bytes. -/
theorem wordsAreLittleEndian : Obligations.WordsAreLittleEndian := by
  unfold Obligations.WordsAreLittleEndian
  refine ⟨memRead_toNat, ?_, fun ws => ⟨storeWords_length ws, loadWords_storeWords ws⟩, storeWords_loadWords,
    by decide⟩
  intro ws i k hi hk
  rw [storeWords_getD ws i k hi hk, byteOf_toNat]

/-- Settles O45: the one new response is `responseOf`, whose status is a test of the payload's length. -/
theorem payloadSizes : Obligations.PayloadSizes := by
  unfold Obligations.PayloadSizes
  intro i s
  obtain ⟨t, ht, -⟩ := exec_responses i s
  refine ⟨t, responseOf i s, ht, newResponses_of_exec ht, ?_⟩
  rw [← statusOf_ok_iff]
  by_cases h : statusOf s.variant i = .ok
  · obtain ⟨hstatus, hlength⟩ := responseOf_of_ok h
    simp [h, hstatus, hlength]
  · simp [responseOf_of_raise h, h]
end

section
/-! Proofs of the family 30_encoding: the classes of headers in numbers, payloads in beats, and the responses at the
port. -/

namespace Sys2Proof

open Sys2Proof.Machine Sys2Proof.Safety

/-! ### The fields of a header in numbers (rule R61) -/

theorem opField_toNat (h : Header) : (opField h).toNat = h.toNat / 2 ^ 12 := by
  rw [opField, BitVec.extractLsb'_toNat, Nat.shiftRight_eq_div_pow]
  exact Nat.mod_eq_of_lt (by omega)

theorem rsvField_toNat (h : Header) : (rsvField h).toNat = h.toNat / 2 ^ 9 % 8 := by
  rw [rsvField, BitVec.extractLsb'_toNat, Nat.shiftRight_eq_div_pow]

theorem tpField_eq_decide (h : Header) : tpField h = decide (h.toNat / 2 ^ 8 % 2 = 1) := by
  rw [tpField, BitVec.getLsbD, Nat.testBit_eq_decide_div_mod_eq]

theorem lenField_eq_mod (h : Header) : lenField h = h.toNat % 256 := by
  rw [lenField, BitVec.extractLsb'_toNat, Nat.shiftRight_zero]

/-! ### The classes of headers (rules R62, R65 and R69) -/

/-- The `op` field spells an operation exactly when it holds that operation's code. -/
theorem opcodeOf_eq_some_iff (op : BitVec 4) (o : Opcode) : opcodeOf op = some o ↔ op = o.code := by
  cases o <;> revert op <;> decide

/-- A header decodes to an operation when its `op` is the code, `rsv` is 0, and `tp` is 0 unless the operation is
SETTWEAK. -/
theorem decodeHeader_ok_iff_fields (h : Header) (o : Opcode) :
    decodeHeader h = .ok o ↔ opField h = o.code ∧ rsvField h = 0 ∧ (tpField h = true → o = .settweak) := by
  rw [← opcodeOf_eq_some_iff]
  unfold decodeHeader
  cases opcodeOf (opField h) with
  | none => simp
  | some o' =>
    simp only [Option.some.injEq]
    split_ifs with hrsv htp
    · exact ⟨nofun, fun ⟨_, hzero, _⟩ => absurd hzero hrsv⟩
    · exact ⟨nofun, fun ⟨ho, _, htweak⟩ => absurd (ho.trans (htweak htp.1)) htp.2⟩
    · rw [Except.ok.injEq]
      refine ⟨?_, And.left⟩
      rintro rfl
      exact ⟨rfl, not_not.1 hrsv, fun ht => by_contra fun ho => htp ⟨ht, ho⟩⟩

/-- A header decodes to an operation exactly when it is legal and its `op` is the operation's code, in numbers. -/
theorem decodeHeader_ok_iff (h : Header) (o : Opcode) :
    decodeHeader h = .ok o ↔ ¬ illegal h ∧ h.toNat / 2 ^ 12 = o.code.toNat := by
  rw [decodeHeader_ok_iff_fields, ← BitVec.toNat_inj, ← BitVec.toNat_inj, opField_toNat, rsvField_toNat,
    tpField_eq_decide, decide_eq_true_iff, illegal]
  cases o <;> simp [Opcode.code] <;> omega

/-- The `op` of a legal header is the code of an operation. -/
theorem exists_opcode_of_legal {h : Header} (hlegal : ¬ illegal h) : ∃ o : Opcode, h.toNat / 2 ^ 12 = o.code.toNat := by
  have hop : h.toNat / 2 ^ 12 = 1 ∨ h.toNat / 2 ^ 12 = 2 ∨ h.toNat / 2 ^ 12 = 3 ∨ h.toNat / 2 ^ 12 = 4
      ∨ h.toNat / 2 ^ 12 = 5 := by
    unfold illegal at hlegal
    omega
  rcases hop with h1 | h2 | h3 | h4 | h5
  · exact ⟨.setkey, h1⟩
  · exact ⟨.settweak, h2⟩
  · exact ⟨.encrypt, h3⟩
  · exact ⟨.decrypt, h4⟩
  · exact ⟨.blksize, h5⟩

/-- A legal header decodes to the command its `op` names, with its `tp` and the payload it came with. -/
theorem decode_of_legal {h : Header} {o : Opcode} (hlegal : ¬ illegal h) (hop : h.toNat / 2 ^ 12 = o.code.toNat)
    (p : List Byte) : decode h p = .ok (o.command (decide (h.toNat / 2 ^ 8 % 2 = 1)) p) := by
  rw [decode, (decodeHeader_ok_iff h o).2 ⟨hlegal, hop⟩, tpField_eq_decide]

/-- Decoding errs exactly on the illegal headers. -/
theorem decode_error_iff (h : Header) (p : List Byte) : (∃ e, decode h p = .error e) ↔ illegal h := by
  constructor
  · rintro ⟨e, he⟩
    by_contra hlegal
    obtain ⟨o, ho⟩ := exists_opcode_of_legal hlegal
    rw [decode_of_legal hlegal ho p] at he
    cases he
  · intro hill
    cases hd : decodeHeader h with
    | error e => exact ⟨e, by rw [decode, hd]⟩
    | ok o => exact absurd hill ((decodeHeader_ok_iff h o).1 hd).1

@[simp] theorem command_payload (o : Opcode) (tp : Bool) (p : List Byte) : (o.command tp p).payload = p := by
  cases o <;> rfl

/-- A decoded command carries the payload that its header came with. -/
theorem decode_payload {h : Header} {p : List Byte} {i : Instr} (hd : decode h p = .ok i) : i.payload = p := by
  unfold decode at hd
  cases hh : decodeHeader h with
  | error e => rw [hh] at hd; cases hd
  | ok o =>
    rw [hh] at hd
    cases hd
    exact command_payload o _ p

end Sys2Proof

open Sys2Proof Sys2Proof.Machine Sys2Proof.Safety

/-- Settles O4: a header decodes to an operation exactly when it is legal and its `op` is the operation's code. -/
theorem headerClasses : Obligations.HeaderClasses := by
  unfold Obligations.HeaderClasses
  intro h p
  refine ⟨decode_error_iff h p, fun hl hop => decode_of_legal (o := .setkey) hl hop p,
    fun hl hop => decode_of_legal (o := .settweak) hl hop p, fun hl hop => decode_of_legal (o := .encrypt) hl hop p,
    fun hl hop => decode_of_legal (o := .decrypt) hl hop p, fun hl hop => decode_of_legal (o := .blksize) hl hop p,
    ?_, ?_, lenField_eq_mod h⟩
  · intro hill v
    obtain ⟨e, he⟩ := (decode_error_iff h p).2 hill
    rw [presentedStatus, he]
  · intro v i hd
    exact ⟨decode_payload hd, by rw [presentedStatus, hd]⟩

namespace Sys2Proof.Machine

/-! ### What a step answers, and its size in beats (rules R66 and R67) -/

/-- The response that a command gives has the command's status. -/
theorem responseOf_status (i : Instr) (s : State) : (responseOf i s).status = statusOf s.variant i := by
  by_cases h : statusOf s.variant i = .ok
  · rw [(responseOf_of_ok h).1, h]
  · rw [responseOf_of_raise h]

/-- The output payloads of rule R42's table are whole beats. -/
theorem outputBytes_eq (v : Variant) (i : Instr) : outputBytes v i = 8 * outputBeats v i := by
  cases i <;> rfl

/-- A response's payload is whole beats: as many as rule R67 names when the command ends `OK`, otherwise none. -/
theorem responseOf_payload_length (i : Instr) (s : State) : (responseOf i s).payload.length =
    8 * if statusOf s.variant i = .ok then outputBeats s.variant i else 0 := by
  by_cases h : statusOf s.variant i = .ok
  · rw [(responseOf_of_ok h).2, outputBytes_eq, if_pos h]
  · rw [responseOf_of_raise h, if_neg h]
    rfl

/-- A payload of n whole words takes n beats. -/
theorem beatCount_whole (n : Nat) : beatCount (8 * n) = n := by
  unfold beatCount
  omega

/-- A response takes the beats that rule R67 names. -/
theorem responseOf_beats_length (i : Instr) (s : State) : (responseOf i s).beats.length =
    if statusOf s.variant i = .ok then outputBeats s.variant i else 0 := by
  rw [Response.beats, packBeats_length, responseOf_payload_length, beatCount_whole]

/-- A new response of a step is that of the command it carried out, or `IllegalCommand` without a payload. -/
theorem mem_newResponses_of_step {s t : State} {r : Response} (h : step s = .next t) (hr : r ∈ newResponses s t) :
    (∃ i rest, fetch s.port = .command i rest ∧ r = responseOf i (s.setPort rest))
      ∨ (∃ why rest, fetch s.port = .illegal why rest) ∧ r = ⟨.illegalCommand, []⟩ := by
  rcases step_next_cases h with ⟨-, rfl⟩ | ⟨i, rest, hf, he⟩ | ⟨why, rest, hf, rfl⟩ | ⟨rest, -, rfl⟩
  · simp [newResponses] at hr
  · have hnew : newResponses s t = [responseOf i (s.setPort rest)] := newResponses_of_exec he
    exact .inl ⟨i, rest, hf, by simpa [hnew] using hr⟩
  · exact .inr ⟨⟨why, rest, hf⟩, by simpa [newResponses] using hr⟩
  · simp [newResponses] at hr

/-- What a command adds at the output of the port. -/
theorem exec_output (i : Instr) (s : State) :
    ∃ t, exec i s = .next t ∧ t.output = s.output ++ (responseOf i s).output := by
  obtain ⟨t, ht, hr⟩ := exec_responses i s
  exact ⟨t, ht, output_of_append hr⟩

/-- A step on a whole presentation with an illegal header raises `IllegalCommand` (rule R163). -/
theorem step_of_illegal {s : State} {h : Header} {beats : List Word} {rest : List PortEvent} (hill : illegal h)
    (hport : s.port = .header h :: (beats.map .beat ++ rest)) (hl : beats.length = beatCount (lenField h)) :
    step s = .next ((s.setPort rest).raise .illegalCommand) := by
  obtain ⟨e, he⟩ := (decode_error_iff h (unpackBeats (lenField h) beats)).2 hill
  have hf : fetch s.port = .illegal e rest := by rw [hport, fetch_presentation h beats rest hl, he]
  exact step_of_fetch hf

/-! ### The responses that carry a payload -/

theorem responseOf_encrypt {s : State} {p : List Byte} (hp : p.length = 8 * s.variant.words) :
    responseOf (.encrypt p) s = ⟨.ok, storeWords (encryptBlock s.variant s.ek s.et (loadWords s.variant.words p))⟩ :=
  if_pos ((blockStatus_ok_iff _ _).2 hp)

theorem responseOf_decrypt {s : State} {p : List Byte} (hp : p.length = 8 * s.variant.words) :
    responseOf (.decrypt p) s = ⟨.ok, storeWords (decryptBlock s.variant s.ek s.et (loadWords s.variant.words p))⟩ :=
  if_pos ((blockStatus_ok_iff _ _).2 hp)

theorem responseOf_blksize (s : State) :
    responseOf (.blksize []) s = ⟨.ok, storeWords [BitVec.ofNat 64 (8 * s.variant.words)]⟩ := by
  rw [storeWords_cons, storeWords_nil, List.append_nil]
  rfl

end Sys2Proof.Machine

/-- Settles O7: beats are the payload's bytes stored as words, and every response is a whole number of beats. -/
theorem payloadTravelsInBeats : Obligations.PayloadTravelsInBeats := by
  unfold Obligations.PayloadTravelsInBeats
  refine ⟨?_, fun p => ⟨packBeats_length p, unpackBeats_packBeats p⟩, packBeats_storeWords, ?_⟩
  · intro len beats hl
    refine ⟨unpackBeats_length len beats hl, fun b k hk hlen => ?_⟩
    have hb : b < beats.length := by omega
    rw [unpackBeats_getD len beats hlen, storeWords_getD beats b k hb hk, byteOf_toNat]
  · intro s t r hstep hr
    rcases mem_newResponses_of_step hstep hr with ⟨i, rest, -, rfl⟩ | ⟨-, rfl⟩
    · rw [responseOf_payload_length]
      exact Nat.mul_mod_right 8 _
    · rfl

/-- Settles O56: what a command adds at the port is `responseOf` in beats; an illegal header's command is raised. -/
theorem responsesOnThePort : Obligations.ResponsesOnThePort := by
  unfold Obligations.ResponsesOnThePort
  refine ⟨?_, ?_, ?_, ?_, ?_⟩
  · intro i s
    obtain ⟨t, ht, hout⟩ := exec_output i s
    refine ⟨t, (responseOf i s).beats, ht, ?_, responseOf_beats_length i s⟩
    rw [hout, Response.output, responseOf_status]
  · intro s p hp
    have henc := exec_output (.encrypt p) s
    have hdec := exec_output (.decrypt p) s
    rw [responseOf_encrypt hp, output_storeWords] at henc
    rw [responseOf_decrypt hp, output_storeWords] at hdec
    exact ⟨henc, hdec⟩
  · intro s
    have hblk := exec_output (.blksize []) s
    rw [responseOf_blksize, output_storeWords] at hblk
    exact hblk
  · intro s h beats rest hill hport hl
    exact ⟨_, step_of_illegal hill hport hl, State.raise_output _ _⟩
  · intro st
    cases st <;> decide
end

section
/-! Proofs of the family 40_key_schedule: what SETKEY writes, and the parity word of an expanded key. -/

namespace Sys2Proof

open Sys2Proof.Machine

/-- The `len` field stands alone in the low bits of a header (rule R61). -/
theorem headerWord_eq_or (op : BitVec 4) (tp : Bool) (len : BitVec 8) :
    headerWord op tp len = headerWord op tp 0 ||| len.setWidth 16 := by
  apply BitVec.eq_of_getLsbD_eq
  intro j hj
  simp only [headerWord, BitVec.getLsbD_or, BitVec.getLsbD_append, BitVec.getLsbD_setWidth]
  by_cases hlen : j < 8
  · simp [hlen, hj]
  · simp [hlen, BitVec.getLsbD_of_ge len j (not_lt.1 hlen)]

/-- The header of a command that can be spelled is that of its operation, with the payload's length in the low bits. -/
theorem headerOf_of_le {i : Instr} (h : i.payload.length ≤ 255) :
    headerOf i = headerWord i.opcode.code i.tp 0 ||| BitVec.ofNat 16 i.payload.length := by
  have hlen : (BitVec.ofNat 8 i.payload.length).setWidth 16 = BitVec.ofNat 16 i.payload.length := by
    apply BitVec.eq_of_toNat_eq
    simp only [BitVec.toNat_setWidth, BitVec.toNat_ofNat]
    omega
  rw [headerOf, spelled_of_le h, headerWord_eq_or, hlen]

/-- The header of SETKEY is `0x1000 | len` (rule R81). -/
theorem headerOf_setkey (p : List Byte) (h : p.length ≤ 255) :
    headerOf (.setkey p) = 0x1000 ||| BitVec.ofNat 16 p.length := by
  have hop : headerWord Opcode.setkey.code false 0 = 0x1000 := by decide
  rw [← hop]
  exact headerOf_of_le (i := .setkey p) h

end Sys2Proof

namespace Sys2Proof.Machine

open Sys2Proof.Safety

/-! ### The key schedule on words (rules R80 and R83) -/

theorem foldl_xor_eq (c : Word) (ws : List Word) : ws.foldl (· ^^^ ·) c = c ^^^ xorAll ws := by
  induction ws generalizing c with
  | nil => simp [xorAll]
  | cons w ws ih => rw [List.foldl_cons, ih, xorAll, BitVec.xor_assoc]

/-- The parity word is the constant xor all key words. -/
theorem parityWord_eq (key : List Word) : parityWord key = keyScheduleConst ^^^ xorAll key :=
  foldl_xor_eq keyScheduleConst key

theorem xorAll_replicate_zero (n : Nat) : xorAll (List.replicate n 0) = 0 := by
  induction n with
  | zero => rfl
  | succ n ih =>
    rw [List.replicate_succ, xorAll, ih]
    exact BitVec.xor_self

@[simp] theorem expandKey_length (key : List Word) : (expandKey key).length = key.length + 1 := by simp [expandKey]

@[simp] theorem expandKey_take (key : List Word) : (expandKey key).take key.length = key := List.take_left

theorem expandKey_getD (key : List Word) {i : Nat} (hi : i < key.length) :
    (expandKey key).getD i 0 = key.getD i 0 := List.getD_append _ _ _ _ hi

@[simp] theorem expandKey_getD_length (key : List Word) : (expandKey key).getD key.length 0 = parityWord key := by
  simp [expandKey, List.getD_eq_getElem?_getD]

/-! ### SETKEY (rule R81) -/

/-- SETKEY with `len = 8*N` writes the expanded key to `EK`, responds `OK` and changes nothing else. -/
theorem exec_setkey_of_length {s : State} {p : List Byte} (hp : p.length = 8 * s.variant.words) :
    exec (.setkey p) s = .next { s with
      ek := expandKey (loadWords s.variant.words p), responses := s.responses ++ [⟨.ok, []⟩] } :=
  exec_of_ok ((setkeyStatus_ok_iff _ _).2 hp)

/-- SETKEY with any other length raises `InvalidKeySize`. -/
theorem exec_setkey_of_length_ne {s : State} {p : List Byte} (hp : p.length ≠ 8 * s.variant.words) :
    exec (.setkey p) s = .next (s.raise .invalidKeySize) := by
  have hstatus : statusOf s.variant (.setkey p) = .invalidKeySize := if_neg hp
  rw [exec_of_raise (by simp [hstatus]), hstatus]

/-! ### The parity law of `EK` (rules R33 and R83) -/

theorem keyed_iff (s : State) : keyed s ↔
    s.ek.getD s.variant.words 0 = keyScheduleConst ^^^ xorAll (s.ek.take s.variant.words) := by
  rw [keyed, parityWord_eq]

/-- An expanded key of N words satisfies the parity law. -/
theorem keyed_of_expandKey {s : State} {key : List Word} (hkey : key.length = s.variant.words)
    (hek : s.ek = expandKey key) : keyed s := by
  rw [keyed, hek, ← hkey, expandKey_getD_length, expandKey_take]

/-- After a SETKEY that ends `OK` the parity law holds. -/
theorem keyed_of_exec_setkey {s t : State} {p : List Byte} (hp : p.length = 8 * s.variant.words)
    (h : exec (.setkey p) s = .next t) : keyed t := by
  rw [exec_setkey_of_length hp] at h
  cases h
  exact keyed_of_expandKey (loadWords_length _ p) rfl

/-- All-zero words do not satisfy the parity law: their exclusive or is 0, and the constant is not. -/
theorem not_keyed_of_unkeyed {s : State} (h : unkeyed s) : ¬ keyed s := by
  rw [keyed_iff, h, List.take_replicate, xorAll_replicate_zero, List.getD_replicate _ (Nat.lt_succ_self _)]
  decide

end Sys2Proof.Machine

open Sys2Proof Sys2Proof.Machine Sys2Proof.Safety

/-- Settles O26: by the length, SETKEY writes the expanded key or raises; the words of `EK` are those of `expandKey`. -/
theorem setkeyCompletes : Obligations.SetkeyCompletes := by
  unfold Obligations.SetkeyCompletes
  refine ⟨?_, fun _ _ => exec_setkey_of_length_ne, headerOf_setkey, ?_⟩
  · intro s p hp
    have hlen : (loadWords s.variant.words p).length = s.variant.words := loadWords_length _ p
    refine ⟨expandKey (loadWords s.variant.words p), exec_setkey_of_length hp, by rw [expandKey_length, hlen], ?_, ?_⟩
    · intro i hi
      rw [expandKey_getD _ (hlen.symm ▸ hi), loadWords_getD _ p hi, memRead_toNat]
    · exact (keyed_iff _).1 (keyed_of_exec_setkey hp (exec_setkey_of_length hp))
  · intro s hv
    have hp : (storeWords [1, 2, 4, 8]).length = 8 * s.variant.words := by rw [storeWords_length, hv]; rfl
    refine ⟨_, exec_setkey_of_length hp, ?_⟩
    have hload : loadWords s.variant.words (storeWords [1, 2, 4, 8]) = [1, 2, 4, 8] :=
      hv ▸ loadWords_storeWords [1, 2, 4, 8]
    simp only [hload]
    decide

/-- Settles O28: the parity word of an expanded key is the constant xor the key; all-zero words have no such parity. -/
theorem keyScheduleParity : Obligations.KeyScheduleParity := by
  unfold Obligations.KeyScheduleParity
  refine ⟨?_, ?_, ?_⟩
  · intro key
    rw [expandKey_getD_length, parityWord_eq]
    rfl
  · intro s t p h hok
    have hp : p.length = 8 * s.variant.words := (setkeyStatus_ok_iff _ _).1 hok
    have hkeyed : keyed t := keyed_of_exec_setkey hp h
    rw [exec_setkey_of_length hp] at h
    cases h
    exact (keyed_iff _).1 hkeyed
  · intro v h
    exact not_keyed_of_unkeyed (s := State.resetOf v) rfl ((keyed_iff _).2 h)
end

section
/-! Proofs of the family 41_tweak_schedule: what SETTWEAK writes in its two forms, and when it raises. -/

namespace Sys2Proof

open Sys2Proof.Machine

/-- The header of SETTWEAK with 16 bytes of tweak is `0x2110` (rule R91). -/
theorem headerOf_settweak_of_length {p : List Byte} (hp : p.length = 16) : headerOf (.settweak true p) = 0x2110 := by
  have hheader : headerOf (.settweak true p) = headerWord Opcode.settweak.code true 0 ||| BitVec.ofNat 16 p.length :=
    headerOf_of_le (i := .settweak true p) (hp.trans_le (by decide))
  rw [hheader, hp]
  decide

/-- The header of SETTWEAK without a tweak is `0x2000` (rule R91). -/
theorem headerOf_settweak_nil : headerOf (.settweak false []) = 0x2000 := by decide

end Sys2Proof

namespace Sys2Proof.Machine

/-! ### SETTWEAK (rule R91) -/

/-- SETTWEAK with 16 bytes of tweak writes its two words and their exclusive or to `ET`, responds `OK` and changes
nothing else. -/
theorem exec_settweak_of_length {p : List Byte} (s : State) (hp : p.length = 16) :
    exec (.settweak true p) s = .next { s with
      et := ⟨memRead p 0, memRead p 8, memRead p 0 ^^^ memRead p 8⟩, responses := s.responses ++ [⟨.ok, []⟩] } :=
  exec_of_ok ((settweakStatus_ok_iff _ _).2 (.inl ⟨rfl, hp⟩))

/-- SETTWEAK without a tweak clears `ET`, responds `OK` and changes nothing else. -/
theorem exec_settweak_nil (s : State) :
    exec (.settweak false []) s = .next { s with et := ⟨0, 0, 0⟩, responses := s.responses ++ [⟨.ok, []⟩] } :=
  exec_of_ok ((settweakStatus_ok_iff _ _).2 (.inr ⟨rfl, rfl⟩))

/-- SETTWEAK with any other pair of `tp` and length raises `Precondition`. -/
theorem exec_settweak_of_bad_pair {tp : Bool} {p : List Byte} (s : State) (hsome : ¬ (tp = true ∧ p.length = 16))
    (hnone : ¬ (tp = false ∧ p.length = 0)) : exec (.settweak tp p) s = .next (s.raise .precondition) := by
  have hstatus : statusOf s.variant (.settweak tp p) = .precondition := if_neg (not_or.2 ⟨hsome, hnone⟩)
  rw [exec_of_raise (by simp [hstatus]), hstatus]

end Sys2Proof.Machine

open Sys2Proof Sys2Proof.Machine

/-- Settles O27: by `tp` and the length, SETTWEAK writes the expanded tweak, clears `ET` or raises; the words it writes are
the payload's two little-endian words. -/
theorem settweakCompletes : Obligations.SettweakCompletes := by
  unfold Obligations.SettweakCompletes
  refine ⟨?_, exec_settweak_nil, fun s _ _ => exec_settweak_of_bad_pair s, fun _ => headerOf_settweak_of_length,
    headerOf_settweak_nil, ?_⟩
  · intro s p hp
    exact ⟨memRead p 0, memRead p 8, memRead_toNat p 0, memRead_toNat p 8, exec_settweak_of_length s hp⟩
  · intro s
    refine ⟨_, exec_settweak_of_length s rfl, ?_⟩
    dsimp only
    decide
end

section
/-! Proofs of the family 42_round_engine: where a rotation moves each bit; and a step as a function of N, `EK`, `ET` and
what is presented. -/

namespace Sys2Proof.Machine

/-! ### Rotations (rule R102) -/

/-- A rotation left by an amount in use moves bit i to bit `(i + r) mod 64`. -/
theorem rotl64_getLsbD (x : Word) {r i : Nat} (hlo : 1 ≤ r) (hhi : r ≤ 63) (hi : i < 64) :
    (rotl64 x r).getLsbD ((i + r) % 64) = x.getLsbD i := by
  rw [rotl64, BitVec.getLsbD_or, BitVec.getLsbD_shiftLeft, BitVec.getLsbD_ushiftRight]
  by_cases hwrap : i + r < 64
  · have hout : 64 ≤ 64 - r + (i + r) := by omega
    rw [Nat.mod_eq_of_lt hwrap, BitVec.getLsbD_of_ge x _ hout, Nat.add_sub_cancel]
    simp [hwrap]
  · have hmod : (i + r) % 64 = i + r - 64 := by omega
    have hlow : i + r - 64 < r := by omega
    have hsource : 64 - r + (i + r - 64) = i := by omega
    rw [hmod, hsource]
    simp [hlow]

/-- A rotation right is the rotation left by the rest of the word. -/
theorem rotr64_eq_rotl64 (x : Word) {r : Nat} (hr : r ≤ 64) : rotr64 x r = rotl64 x (64 - r) := by
  rw [rotr64, rotl64, Nat.sub_sub_self hr, BitVec.or_comm]

/-- Every amount of the rotation tables is in 4..59. -/
theorem rotTable_range (v : Variant) : ∀ row ∈ rotTable v, ∀ r ∈ row, 4 ≤ r ∧ r ≤ 59 := by
  cases v <;> decide

end Sys2Proof.Machine

namespace Sys2Proof.Safety

open Sys2Proof.Machine

/-! ### States that agree in N, `EK`, `ET` and the port -/

variable {s t u : State}

namespace agree

theorem variant (h : agree s t) : s.variant = t.variant := h.1
theorem port (h : agree s t) : s.port = t.port := h.2.2.2

theorem symm (h : agree s t) : agree t s := by
  obtain ⟨hv, hek, het, hport⟩ := h
  exact ⟨hv.symm, hek.symm, het.symm, hport.symm⟩

theorem trans (h : agree s t) (k : agree t u) : agree s u := by
  obtain ⟨hv, hek, het, hport⟩ := h
  obtain ⟨kv, kek, ket, kport⟩ := k
  exact ⟨hv.trans kv, hek.trans kek, het.trans ket, hport.trans kport⟩

/-- Working registers and round index are not compared. -/
theorem of_sameButWorking (h : SameButWorking s t) : agree s t :=
  ⟨h.variant.symm, h.ek.symm, h.et.symm, h.port.symm⟩

theorem setPort (h : agree s t) (rest : List PortEvent) : agree (s.setPort rest) (t.setPort rest) := by
  obtain ⟨hv, hek, het, -⟩ := h
  exact ⟨hv, hek, het, rfl⟩

theorem setEk (h : agree s t) {x y : List Word} (hxy : x = y) : agree (s.setEk x) (t.setEk y) := by
  obtain ⟨hv, -, het, hport⟩ := h
  exact ⟨hv, hxy, het, hport⟩

theorem setEt (h : agree s t) (x : ExpandedTweak) : agree (s.setEt x) (t.setEt x) := by
  obtain ⟨hv, hek, -, hport⟩ := h
  exact ⟨hv, hek, rfl, hport⟩

/-- Responses are not compared. -/
theorem respond (h : agree s t) (st st' : Status) (p p' : List Byte) : agree (s.respond st p) (t.respond st' p') := h

/-- Free values are not compared. -/
theorem unspecifyWorking (h : agree s t) : agree s.unspecifyWorking t.unspecifyWorking := h

theorem deliverBlock (h : agree s t) : agree s.deliverBlock t.deliverBlock := h

theorem resetEvent (h : agree s t) : agree s.resetEvent t.resetEvent :=
  ((h.setEk (by rw [h.variant])).setEt _).unspecifyWorking

/-- ENCRYPT_CORE and DECRYPT_CORE write nothing that is compared, whatever the blocks. -/
theorem encryptCore (h : agree s t) (a b : List Word) : agree (s.encryptCore a) (t.encryptCore b) :=
  ((of_sameButWorking (encryptCore_sameButWorking s a)).symm.trans h).trans
    (of_sameButWorking (encryptCore_sameButWorking t b))

theorem decryptCore (h : agree s t) (a b : List Word) : agree (s.decryptCore a) (t.decryptCore b) :=
  ((of_sameButWorking (decryptCore_sameButWorking s a)).symm.trans h).trans
    (of_sameButWorking (decryptCore_sameButWorking t b))

/-- Commands that end `OK` write `EK` and `ET` from their payload and N alone. -/
theorem effectOf (h : agree s t) (i : Instr) : agree (effectOf i s) (effectOf i t) := by
  cases i with
  | setkey p => exact (h.setEk (by rw [h.variant])).respond ..
  | settweak tp p => exact (h.setEt _).respond ..
  | encrypt p => exact (h.encryptCore _ _).deliverBlock
  | decrypt p => exact (h.decryptCore _ _).deliverBlock
  | blksize p => exact h.respond ..

/-- The response to a command is a function of N, `EK`, `ET` and the payload. -/
theorem responseOf_eq (h : agree s t) (i : Instr) : responseOf i s = responseOf i t := by
  obtain ⟨hv, hek, het, -⟩ := h
  cases i <;> simp only [responseOf, hv, hek, het]

/-- A command carried out in two states that agree leaves two that agree. -/
theorem exec_next (h : agree s t) (i : Instr) :
    ∃ s' t', exec i s = .next s' ∧ exec i t = .next t' ∧ agree s' t' := by
  rcases exec_cases i s with ⟨hok, hs⟩ | ⟨hraise, hs⟩
  · exact ⟨_, _, hs, exec_of_ok (h.variant ▸ hok), h.effectOf i⟩
  · exact ⟨_, _, hs, exec_of_raise (h.variant ▸ hraise), h.respond ..⟩

end agree

end Sys2Proof.Safety

open Sys2Proof.Machine Sys2Proof.Safety

/-- Settles O48: the two states fetch the same thing, and waiting, carrying out a command, raising and resetting each keep
the agreement and give the same responses. -/
theorem noHiddenState : Obligations.NoHiddenState := by
  unfold Obligations.NoHiddenState
  intro s t s' h hstep
  rcases step_next_cases hstep with ⟨hf, rfl⟩ | ⟨i, rest, hf, hs⟩ | ⟨why, rest, hf, rfl⟩ | ⟨rest, hf, rfl⟩ <;>
    rw [h.port] at hf
  · exact ⟨t, step_of_fetch hf, h, by simp [newResponses]⟩
  · obtain ⟨a, t', ha, ht, hagree⟩ := (h.setPort rest).exec_next i
    obtain rfl : s' = a := Host.Outcome.next.inj (hs.symm.trans ha)
    have hnew : newResponses (s.setPort rest) s' = newResponses (t.setPort rest) t' := by
      rw [newResponses_of_exec hs, newResponses_of_exec ht, (h.setPort rest).responseOf_eq i]
    exact ⟨t', (step_of_fetch hf).trans ht, hagree, hnew⟩
  · exact ⟨_, step_of_fetch hf, (h.setPort rest).respond .., by simp [newResponses]⟩
  · exact ⟨_, step_of_fetch hf, (h.setPort rest).resetEvent, by simp [newResponses]⟩

/-- Settles O31: a rotation right is a rotation left by the rest of the word, so one law of the bits serves both. -/
theorem rotationMovesBits : Obligations.RotationMovesBits := by
  unfold Obligations.RotationMovesBits
  refine ⟨?_, rotTable_range, by decide, by decide, by decide, by decide, by decide, by decide⟩
  intro x r i hlo hhi hi
  have hright : rotr64 x r = rotl64 x (64 - r) := rotr64_eq_rotl64 x (by omega)
  refine ⟨rotl64_getLsbD x hlo hhi hi, ?_, hright⟩
  rw [hright]
  exact rotl64_getLsbD x (by omega) (by omega) hi
end

section
/-! Proofs of the family 43_facade: what BLKSIZE answers, that no step changes N, and the choice of N by the key's
length. -/

namespace Sys2Proof.Machine

/-! ### N is kept for the life of an instance (rule R34) -/

/-- The effect of a command leaves N as it was. -/
@[simp] theorem effectOf_variant (i : Instr) (s : State) : (effectOf i s).variant = s.variant := by
  cases i with
  | setkey p => rfl
  | settweak tp p => rfl
  | encrypt p => exact (encryptCore_sameButWorking s _).variant
  | decrypt p => exact (decryptCore_sameButWorking s _).variant
  | blksize p => rfl

/-- A command leaves N as it was, by its effect or by raising. -/
theorem exec_keeps_variant {i : Instr} {s t : State} (h : exec i s = .next t) : t.variant = s.variant := by
  rcases exec_cases i s with ⟨-, he⟩ | ⟨-, he⟩
  · obtain rfl := Host.Outcome.next.inj (he.symm.trans h)
    exact effectOf_variant i s
  · obtain rfl := Host.Outcome.next.inj (he.symm.trans h)
    exact State.raise_variant s _

/-- A step that answers a next state leaves N as it was. -/
theorem step_keeps_variant {s t : State} (h : step s = .next t) : t.variant = s.variant := by
  rcases step_next_cases h with ⟨-, rfl⟩ | ⟨i, rest, -, he⟩ | ⟨_, rest, -, rfl⟩ | ⟨rest, -, rfl⟩
  · rfl
  · exact (exec_keeps_variant he).trans (State.setPort_variant s rest)
  · rfl
  · rfl

/-! ### BLKSIZE (rule R144) -/

/-- The bytes of `8*N` as one word: it fits the first. -/
theorem wordBytes_blockBytes (v : Variant) :
    wordBytes (BitVec.ofNat 64 (blockBytes v)) = [BitVec.ofNat 8 (8 * v.words), 0, 0, 0, 0, 0, 0, 0] := by
  cases v <;> decide

/-- BLKSIZE without a payload responds `OK` with `8*N` and changes nothing else. -/
theorem exec_blksize_nil (s : State) : exec (.blksize []) s =
    .next (s.respond .ok [BitVec.ofNat 8 (8 * s.variant.words), 0, 0, 0, 0, 0, 0, 0]) := by
  rw [← wordBytes_blockBytes]
  exact exec_of_ok ((blksizeStatus_ok_iff 0).2 rfl)

/-- BLKSIZE with a payload raises `Precondition`. -/
theorem exec_blksize_of_length_ne (s : State) {p : List Byte} (hp : p.length ≠ 0) :
    exec (.blksize p) s = .next (s.raise .precondition) := by
  have hstatus : statusOf s.variant (.blksize p) = .precondition := if_neg hp
  rw [exec_of_raise (by simp [hstatus]), hstatus]

/-! ### SELECT_VARIANT (rule R141) -/

/-- A length selects a variant exactly when it is that variant's key size. -/
theorem selectVariant_eq_some_iff (n : Nat) (v : Variant) : selectVariant n = some v ↔ n = 8 * v.words := by
  constructor
  · intro h
    unfold selectVariant at h
    split_ifs at h with h32 h64 h128 <;> cases h <;> assumption
  · rintro rfl
    cases v <;> rfl

/-- A length that is no variant's key size selects none. -/
theorem selectVariant_eq_none {n : Nat} (h32 : n ≠ 32) (h64 : n ≠ 64) (h128 : n ≠ 128) : selectVariant n = none := by
  rw [selectVariant, if_neg h32, if_neg h64, if_neg h128]

end Sys2Proof.Machine

open Sys2Proof Sys2Proof.Machine

/-- Settles O50: without a payload BLKSIZE responds with the bytes of `8*N`, with one it raises; every step keeps N. -/
theorem blksizeAnswers : Obligations.BlksizeAnswers := by
  unfold Obligations.BlksizeAnswers
  exact ⟨exec_blksize_nil, fun s _ => exec_blksize_of_length_ne s, fun _ _ => step_keeps_variant, by decide,
    exec_blksize_nil (State.resetOf .tf512)⟩

/-- Settles O51: selecting a variant and passing SETKEY's length test are both the equation `n = 8*N`. -/
theorem keyLengthSelectsVariant : Obligations.KeyLengthSelectsVariant := by
  unfold Obligations.KeyLengthSelectsVariant
  refine ⟨rfl, rfl, rfl, fun _ => selectVariant_eq_none, fun v n => ?_⟩
  rw [selectVariant_eq_some_iff, setkeyStatus_ok_iff]
end

section
/-! Proofs of the family 60_exceptions: which command raises which status, the order of the checks, and what a command
that raises leaves. -/

namespace Sys2Proof.Machine

open Sys2Proof.Safety

/-! ### The status of a command (rules R161 and R162) -/

/-- `InvalidKeySize` is the status of a SETKEY whose length is not `8*N`, and of no other command. -/
theorem statusOf_eq_invalidKeySize_iff (v : Variant) (i : Instr) :
    statusOf v i = .invalidKeySize ↔ ∃ p, i = .setkey p ∧ p.length ≠ 8 * v.words := by
  constructor
  · intro h
    rcases statusOf_cases v i with hok | ⟨-, hsetkey⟩ | ⟨hpre, -⟩
    · rw [hok] at h; cases h
    · exact hsetkey
    · rw [hpre] at h; cases h
  · rintro ⟨p, rfl, hp⟩
    exact if_neg hp

/-- `Precondition` is the status of a command other than SETKEY whose length is not the one it wants. -/
theorem statusOf_eq_precondition_iff (v : Variant) (i : Instr) :
    statusOf v i = .precondition ↔ (∀ p, i ≠ .setkey p) ∧ i.payload.length ≠ inputBytes v i := by
  rw [Ne, ← statusOf_ok_iff]
  rcases statusOf_cases v i with hok | ⟨hkey, p, rfl, -⟩ | ⟨hpre, hother⟩
  · simp [hok]
  · simp [hkey]
  · simpa [hpre] using hother

/-- The status of a command other than SETKEY is a test of its length against the one it wants. -/
theorem statusOf_of_ne_setkey (v : Variant) {i : Instr} (hother : ∀ p, i ≠ .setkey p) :
    statusOf v i = if i.payload.length = inputBytes v i then .ok else .precondition := by
  split_ifs with hlen
  · exact (statusOf_ok_iff v i).2 hlen
  · exact (statusOf_eq_precondition_iff v i).2 ⟨hother, hlen⟩

/-- A command other than SETKEY whose length is not the one it wants raises `Precondition`. -/
theorem exec_of_ne_inputBytes {i : Instr} {s : State} (hother : ∀ p, i ≠ .setkey p)
    (hlen : i.payload.length ≠ inputBytes s.variant i) : exec i s = .next (s.raise .precondition) := by
  have hstatus : statusOf s.variant i = .precondition := (statusOf_eq_precondition_iff _ i).2 ⟨hother, hlen⟩
  rw [exec_of_raise (by simp [hstatus]), hstatus]

/-! ### The status of a presentation: legality first (rule R165) -/

theorem presentedStatus_of_illegal {h : Header} (hill : illegal h) (v : Variant) (p : List Byte) :
    presentedStatus v h p = .illegalCommand := by
  obtain ⟨e, he⟩ := (decode_error_iff h p).2 hill
  rw [presentedStatus, he]

theorem presentedStatus_of_decode {h : Header} {p : List Byte} {i : Instr} (hd : decode h p = .ok i) (v : Variant) :
    presentedStatus v h p = statusOf v i := by
  rw [presentedStatus, hd]

/-! ### A step on a whole presentation -/

section Presentation

variable {s : State} {h : Header} {p : List Byte} {rest : List PortEvent}

/-- A step on a whole presentation of an illegal header raises `IllegalCommand`. -/
theorem step_of_presentRaw_illegal (hp : p.length = lenField h) (hport : s.port = presentRaw h p ++ rest)
    (hill : illegal h) : step s = .next ((s.setPort rest).raise .illegalCommand) :=
  step_of_illegal hill hport (by rw [packBeats_length, hp])

/-- A step on a whole presentation that decodes carries out its command. -/
theorem step_of_presentRaw_command {i : Instr} (hp : p.length = lenField h)
    (hport : s.port = presentRaw h p ++ rest) (hd : decode h p = .ok i) : step s = exec i (s.setPort rest) := by
  have hf : fetch s.port = .command i rest := by rw [hport, fetch_presentRaw h p rest hp, hd]
  exact step_of_fetch hf

/-- A step on a whole presentation gives one response, with the status of the presentation. -/
theorem step_of_presentRaw_answers (hp : p.length = lenField h) (hport : s.port = presentRaw h p ++ rest) :
    ∃ t r, step s = .next t ∧ newResponses s t = [r] ∧ r.status = presentedStatus s.variant h p := by
  cases hd : decode h p with
  | error e =>
    have hill : illegal h := (decode_error_iff h p).1 ⟨e, hd⟩
    exact ⟨_, ⟨.illegalCommand, []⟩, step_of_presentRaw_illegal hp hport hill, newResponses_of_append rfl,
      (presentedStatus_of_illegal hill s.variant p).symm⟩
  | ok i =>
    obtain ⟨t, ht, hresponses⟩ := exec_responses i (s.setPort rest)
    refine ⟨t, responseOf i (s.setPort rest), (step_of_presentRaw_command hp hport hd).trans ht,
      newResponses_of_append hresponses, ?_⟩
    rw [responseOf_status, presentedStatus_of_decode hd, State.setPort_variant]

/-- A step on a whole presentation whose status is not `OK` raises that status, its payload taken (rule R166). -/
theorem step_of_presentRaw_raises (hp : p.length = lenField h) (hport : s.port = presentRaw h p ++ rest)
    (hraise : presentedStatus s.variant h p ≠ .ok) :
    step s = .next ((s.setPort rest).raise (presentedStatus s.variant h p)) := by
  cases hd : decode h p with
  | error e =>
    have hill : illegal h := (decode_error_iff h p).1 ⟨e, hd⟩
    rw [presentedStatus_of_illegal hill]
    exact step_of_presentRaw_illegal hp hport hill
  | ok i =>
    rw [presentedStatus_of_decode hd] at hraise ⊢
    exact (step_of_presentRaw_command hp hport hd).trans (exec_of_raise hraise)

end Presentation

end Sys2Proof.Machine

open Sys2Proof Sys2Proof.Machine Sys2Proof.Safety

/-- Settles O14: a new response is that of a command fetched, which has the status `InvalidKeySize` only as a SETKEY of a
wrong length, or is `IllegalCommand`. -/
theorem invalidKeySizeExactly : Obligations.InvalidKeySizeExactly := by
  unfold Obligations.InvalidKeySizeExactly
  refine ⟨fun _ _ => exec_setkey_of_length_ne, ?_⟩
  intro s t r hstep hr hstatus
  rcases mem_newResponses_of_step hstep hr with ⟨i, rest, hf, rfl⟩ | ⟨-, rfl⟩
  · rw [responseOf_status, State.setPort_variant] at hstatus
    obtain ⟨p, rfl, hp⟩ := (statusOf_eq_invalidKeySize_iff s.variant i).1 hstatus
    exact ⟨p, rest, hf, hp⟩
  · cases hstatus

/-- Settles O15: outside SETKEY a length other than the one the command wants is raised as `Precondition`; and the one
response of a command has the command's status. -/
theorem preconditionExactly : Obligations.PreconditionExactly := by
  unfold Obligations.PreconditionExactly
  refine ⟨?_, fun s _ _ => exec_settweak_of_bad_pair s, fun s _ => exec_blksize_of_length_ne s, ?_⟩
  · intro s p hp
    exact ⟨exec_of_ne_inputBytes (i := .encrypt p) nofun hp, exec_of_ne_inputBytes (i := .decrypt p) nofun hp⟩
  · intro s t i r hexec hr
    rw [newResponses_of_exec hexec, List.mem_singleton] at hr
    rw [hr, responseOf_status]
    exact statusOf_eq_precondition_iff s.variant i

/-- Settles O16: the one response has the presentation's status, which looks at the length of a legal header's command
only. -/
theorem checksInOrder : Obligations.ChecksInOrder := by
  unfold Obligations.ChecksInOrder
  have hillegal : illegal 0x1221 := by unfold illegal; decide
  refine ⟨?_, hillegal, by unfold illegal; decide, ?_⟩
  · intro s h p rest hp hport
    obtain ⟨t, r, hstep, hnew, hstatus⟩ := step_of_presentRaw_answers hp hport
    refine ⟨t, r, hstep, hnew, ?_, ?_, ?_⟩
    · intro hill
      rw [hstatus, presentedStatus_of_illegal hill]
    · intro hlegal hop
      rw [hstatus, presentedStatus_of_decode (decode_of_legal (o := .setkey) hlegal hop p)]
      rfl
    · intro i hd hother
      rw [hstatus, presentedStatus_of_decode hd, statusOf_of_ne_setkey _ hother, decode_payload hd]
  · intro v p hp
    have hkey : p.length ≠ 8 * v.words := by omega
    exact ⟨(statusOf_eq_invalidKeySize_iff v (.setkey p)).2 ⟨p, rfl, hkey⟩, presentedStatus_of_illegal hillegal v p⟩

/-- Settles O17: the step is the raise of the presentation's status in the state with its payload taken. -/
theorem raisingChangesNothing : Obligations.RaisingChangesNothing := by
  unfold Obligations.RaisingChangesNothing
  intro s h p rest hp hport hraise
  exact ⟨_, step_of_presentRaw_raises hp hport hraise, rfl, rfl, rfl, rfl, rfl, rfl, rfl⟩
end

section
/-! Proofs of the family other, the layer they share: the state a command leaves is what it writes to the registers and
then its one response; and the inversion lemmas that say what a step can do to each register. -/

namespace Sys2Proof.Machine

open Sys2Proof.Safety

/-! ### The state a command leaves -/

/-- What a command that ends `OK` writes to the engine's registers (the writes column of rule R27). -/
def okWrites : Instr → State → State
  | .setkey p, s => s.setEk (expandKey (loadWords s.variant.words p))
  | .settweak tp p, s => s.setEt (expandTweak (tweakOf tp p))
  | .encrypt _, s => s.unspecifyWorking
  | .decrypt _, s => s.unspecifyWorking
  | .blksize _, s => s

/-- What a command writes to the engine's registers: nothing when its status is not `OK` (rule R166). -/
def writes (i : Instr) (s : State) : State := if statusOf s.variant i = .ok then okWrites i s else s

/-- Delivering the block of a state that differs in `V` and `d` at most is responding with it. -/
theorem SameButWorking.deliverBlock {s t : State} (h : SameButWorking s t) :
    t.deliverBlock = s.unspecifyWorking.respond .ok (storeWords t.v) := by
  rw [h]
  rfl

/-- The effect of a command that ends `OK` is its writes and its response. -/
theorem effectOf_eq {i : Instr} {s : State} (h : statusOf s.variant i = .ok) :
    effectOf i s = (okWrites i s).respond .ok (responseOf i s).payload := by
  cases i with
  | setkey p => rfl
  | settweak tp p => rfl
  | encrypt p =>
    have hr : responseOf (.encrypt p) s =
        ⟨.ok, storeWords (encryptBlock s.variant s.ek s.et (loadWords s.variant.words p))⟩ := if_pos h
    rw [hr, ← encryptCore_v]
    exact (encryptCore_sameButWorking s _).deliverBlock
  | decrypt p =>
    have hr : responseOf (.decrypt p) s =
        ⟨.ok, storeWords (decryptBlock s.variant s.ek s.et (loadWords s.variant.words p))⟩ := if_pos h
    rw [hr, ← decryptCore_v]
    exact (decryptCore_sameButWorking s _).deliverBlock
  | blksize p =>
    have hr : responseOf (.blksize p) s = ⟨.ok, wordBytes (BitVec.ofNat 64 (blockBytes s.variant))⟩ := if_pos h
    rw [hr]
    rfl

/-- Every command answers a next state: its writes, and then its one response. -/
theorem exec_eq_respond (i : Instr) (s : State) :
    exec i s = .next ((writes i s).respond (responseOf i s).status (responseOf i s).payload) := by
  by_cases h : statusOf s.variant i = .ok
  · rw [exec_of_ok h, effectOf_eq h, writes, if_pos h, responseOf_status, h]
  · rw [exec_of_raise h, writes, if_neg h, responseOf_of_raise h]
    rfl

theorem eq_respond_of_exec {i : Instr} {s t : State} (h : exec i s = .next t) :
    t = (writes i s).respond (responseOf i s).status (responseOf i s).payload :=
  Host.Outcome.next.inj (h.symm.trans (exec_eq_respond i s))

/-- `Safety.after` is the next state of exec, which always answers one. -/
theorem exec_eq_after (i : Instr) (s : State) : exec i s = .next (after i s) := by
  rw [after, exec_eq_respond]

theorem after_eq_respond (i : Instr) (s : State) :
    after i s = (writes i s).respond (responseOf i s).status (responseOf i s).payload :=
  eq_respond_of_exec (exec_eq_after i s)

theorem newResponses_after (i : Instr) (s : State) : newResponses s (after i s) = [responseOf i s] :=
  newResponses_of_exec (exec_eq_after i s)

/-- `Safety.responsesTo` is the one response of the command. -/
theorem responsesTo_eq (i : Instr) (s : State) : responsesTo i s = [responseOf i s] := by
  rw [responsesTo, exec_eq_after]
  exact newResponses_after i s

/-! ### What the writes of a command leave unchanged -/

section Writes

variable (i : Instr) (s : State)

@[simp] theorem okWrites_variant : (okWrites i s).variant = s.variant := by cases i <;> rfl
@[simp] theorem okWrites_port : (okWrites i s).port = s.port := by cases i <;> rfl
@[simp] theorem okWrites_responses : (okWrites i s).responses = s.responses := by cases i <;> rfl

variable {i s}

theorem writes_of_ok (h : statusOf s.variant i = .ok) : writes i s = okWrites i s := if_pos h
theorem writes_of_raise (h : statusOf s.variant i ≠ .ok) : writes i s = s := if_neg h

variable (i s)

@[simp] theorem writes_variant : (writes i s).variant = s.variant := by unfold writes; split <;> simp
@[simp] theorem writes_port : (writes i s).port = s.port := by unfold writes; split <;> simp
@[simp] theorem writes_responses : (writes i s).responses = s.responses := by unfold writes; split <;> simp

variable {i}

/-- `EK` is written by SETKEY only. -/
theorem writes_ek (h : ∀ p, i ≠ .setkey p) : (writes i s).ek = s.ek := by
  unfold writes
  split
  · cases i with
    | setkey p => exact absurd rfl (h p)
    | settweak tp p => rfl
    | encrypt p => rfl
    | decrypt p => rfl
    | blksize p => rfl
  · rfl

/-- `ET` is written by SETTWEAK only. -/
theorem writes_et (h : ∀ tp p, i ≠ .settweak tp p) : (writes i s).et = s.et := by
  unfold writes
  split
  · cases i with
    | setkey p => rfl
    | settweak tp p => exact absurd rfl (h tp p)
    | encrypt p => rfl
    | decrypt p => rfl
    | blksize p => rfl
  · rfl

/-- The working registers, the round index and the free-value counter are written by ENCRYPT and DECRYPT only. -/
theorem writes_working (henc : ∀ p, i ≠ .encrypt p) (hdec : ∀ p, i ≠ .decrypt p) :
    (writes i s).v = s.v ∧ (writes i s).d = s.d ∧ (writes i s).occasions = s.occasions := by
  unfold writes
  split
  · cases i with
    | setkey p => exact ⟨rfl, rfl, rfl⟩
    | settweak tp p => exact ⟨rfl, rfl, rfl⟩
    | encrypt p => exact absurd rfl (henc p)
    | decrypt p => exact absurd rfl (hdec p)
    | blksize p => exact ⟨rfl, rfl, rfl⟩
  · exact ⟨rfl, rfl, rfl⟩

/-- What SETKEY writes to `EK`. -/
theorem writes_setkey_ek (p : List Byte) : (writes (.setkey p) s).ek =
    if p.length = 8 * s.variant.words then expandKey (loadWords s.variant.words p) else s.ek := by
  unfold writes
  rw [apply_ite State.ek]
  exact if_congr (setkeyStatus_ok_iff _ _) rfl rfl

/-- What SETTWEAK writes to `ET`. -/
theorem writes_settweak_et (tp : Bool) (p : List Byte) : (writes (.settweak tp p) s).et =
    if (tp = true ∧ p.length = 16) ∨ (tp = false ∧ p.length = 0) then expandTweak (tweakOf tp p) else s.et := by
  unfold writes
  rw [apply_ite State.et]
  exact if_congr (settweakStatus_ok_iff _ _) rfl rfl

/-- The working registers keep their values, or are left unspecified (rules R24 and R25). -/
theorem writes_working_cases (i : Instr) : ((writes i s).v = s.v ∧ (writes i s).d = s.d)
    ∨ ((writes i s).v = s.unspecifyWorking.v ∧ (writes i s).d = s.unspecifyWorking.d) := by
  unfold writes
  split
  · cases i with
    | setkey p => exact .inl ⟨rfl, rfl⟩
    | settweak tp p => exact .inl ⟨rfl, rfl⟩
    | encrypt p => exact .inr ⟨rfl, rfl⟩
    | decrypt p => exact .inr ⟨rfl, rfl⟩
    | blksize p => exact .inl ⟨rfl, rfl⟩
  · exact .inl ⟨rfl, rfl⟩

end Writes

/-! ### What a step can do to each register -/

/-- A step leaves `EK` alone, or is a reset, or carries out a SETKEY of the right length. -/
theorem step_ek_cases {s t : State} (h : step s = .next t) :
    t.ek = s.ek
      ∨ ((∃ rest, fetch s.port = .reset rest) ∧ t.ek = List.replicate (s.variant.words + 1) 0)
      ∨ ∃ p rest, fetch s.port = .command (.setkey p) rest ∧ p.length = 8 * s.variant.words
          ∧ t.ek = expandKey (loadWords s.variant.words p) := by
  rcases step_next_cases h with ⟨-, rfl⟩ | ⟨i, rest, hf, he⟩ | ⟨_, rest, -, rfl⟩ | ⟨rest, hf, rfl⟩
  · exact .inl rfl
  · obtain rfl := eq_respond_of_exec he
    by_cases hi : ∃ p, i = .setkey p
    · obtain ⟨p, rfl⟩ := hi
      rw [State.respond_ek, writes_setkey_ek]
      split
      case isTrue hp => exact .inr (.inr ⟨p, rest, hf, hp, rfl⟩)
      case isFalse => exact .inl rfl
    · exact .inl (writes_ek _ (not_exists.1 hi))
  · exact .inl rfl
  · exact .inr (.inl ⟨⟨rest, hf⟩, rfl⟩)

/-- A step leaves `ET` alone, or is a reset, or carries out a SETTWEAK of a right shape. -/
theorem step_et_cases {s t : State} (h : step s = .next t) :
    t.et = s.et
      ∨ ((∃ rest, fetch s.port = .reset rest) ∧ t.et = expandTweak none)
      ∨ ∃ tp p rest, fetch s.port = .command (.settweak tp p) rest
          ∧ ((tp = true ∧ p.length = 16) ∨ (tp = false ∧ p.length = 0)) ∧ t.et = expandTweak (tweakOf tp p) := by
  rcases step_next_cases h with ⟨-, rfl⟩ | ⟨i, rest, hf, he⟩ | ⟨_, rest, -, rfl⟩ | ⟨rest, hf, rfl⟩
  · exact .inl rfl
  · obtain rfl := eq_respond_of_exec he
    by_cases hi : ∃ tp p, i = .settweak tp p
    · obtain ⟨tp, p, rfl⟩ := hi
      rw [State.respond_et, writes_settweak_et]
      split
      case isTrue hp => exact .inr (.inr ⟨tp, p, rest, hf, hp, rfl⟩)
      case isFalse => exact .inl rfl
    · exact .inl (writes_et _ fun tp p hp => hi ⟨tp, p, hp⟩)
  · exact .inl rfl
  · exact .inr (.inl ⟨⟨rest, hf⟩, rfl⟩)

/-- The working registers that are left unspecified have the shape of rule R20. -/
theorem unspecifyWorking_shape (s : State) :
    s.unspecifyWorking.v.length = s.variant.words ∧ s.unspecifyWorking.d ≤ roundCount s.variant := by
  refine ⟨by simp, ?_⟩
  rw [State.unspecifyWorking_d]
  exact Nat.lt_succ_iff.1 (Nat.mod_lt _ (Nat.succ_pos _))

/-- A step leaves the working registers and the round index alone, or leaves values of the shape of rule R20. -/
theorem step_working_cases {s t : State} (h : step s = .next t) :
    (t.v = s.v ∧ t.d = s.d) ∨ (t.v.length = s.variant.words ∧ t.d ≤ roundCount s.variant) := by
  rcases step_next_cases h with ⟨-, rfl⟩ | ⟨i, rest, -, he⟩ | ⟨_, rest, -, rfl⟩ | ⟨rest, -, rfl⟩
  · exact .inl ⟨rfl, rfl⟩
  · obtain rfl := eq_respond_of_exec he
    rcases writes_working_cases (s.setPort rest) i with hsame | ⟨hv, hd⟩
    · exact .inl hsame
    · refine .inr ?_
      rw [State.respond_v, State.respond_d, hv, hd]
      exact unspecifyWorking_shape (s.setPort rest)
  · exact .inl ⟨rfl, rfl⟩
  · exact .inr (unspecifyWorking_shape s)

end Sys2Proof.Machine
end

section
/-! Proofs of the family other: what every step keeps of the register files, and who writes them. -/

namespace Sys2Proof.Machine

open Sys2Proof.Safety

/-! ### The invariant of rules R20, R33 and R93 -/

/-- An expanded tweak has the tweak parity, given or absent. -/
theorem expandTweak_parity (tweak : Option (Word × Word)) :
    (expandTweak tweak).t2 = (expandTweak tweak).t0 ^^^ (expandTweak tweak).t1 := by
  cases tweak with
  | none => rfl
  | some tweak => rfl

/-- Every step keeps the tweak parity (rule R93). -/
theorem step_keeps_tweak_parity {s t : State} (hs : s.et.t2 = s.et.t0 ^^^ s.et.t1) (h : step s = .next t) :
    t.et.t2 = t.et.t0 ^^^ t.et.t1 := by
  rcases step_et_cases h with het | ⟨-, het⟩ | ⟨_, _, _, -, -, het⟩
  · rw [het, hs]
  · rw [het, expandTweak_parity]
  · rw [het, expandTweak_parity]

/-- Whether the parity law holds is read off N and `EK`. -/
theorem keyed_congr {s t : State} (hv : t.variant = s.variant) (hek : t.ek = s.ek) : keyed t ↔ keyed s := by
  rw [keyed, keyed, hv, hek]

/-- Every step keeps the shape of the state (rule R20). -/
theorem step_keeps_shaped {s t : State} (hs : shaped s) (h : step s = .next t) : shaped t := by
  obtain ⟨hek, hv, hd⟩ := hs
  have hN : t.variant = s.variant := step_keeps_variant h
  have hekt : t.ek.length = s.variant.words + 1 := by
    rcases step_ek_cases h with heq | ⟨-, heq⟩ | ⟨p, _, -, -, heq⟩
    · rw [heq, hek]
    · rw [heq, List.length_replicate]
    · rw [heq, expandKey_length, loadWords_length]
  have hworking : t.v.length = s.variant.words ∧ t.d ≤ roundCount s.variant := by
    rcases step_working_cases h with ⟨hveq, hdeq⟩ | hshape
    · exact ⟨hveq ▸ hv, hdeq ▸ hd⟩
    · exact hshape
  rw [shaped, hN]
  exact ⟨hekt, hworking⟩

/-- Every step keeps the disjunction of rule R33: the all-zero `EK`, or the parity law. -/
theorem step_keeps_unkeyed_or_keyed {s t : State} (hs : unkeyed s ∨ keyed s) (h : step s = .next t) :
    unkeyed t ∨ keyed t := by
  have hN : t.variant = s.variant := step_keeps_variant h
  rcases step_ek_cases h with heq | ⟨-, heq⟩ | ⟨p, _, -, -, heq⟩
  · rwa [keyed_congr hN heq, unkeyed, heq, hN, ← unkeyed]
  · exact .inl (by rw [unkeyed, heq, hN])
  · exact .inr (keyed_of_expandKey (by rw [hN, loadWords_length]) heq)

/-- The reset state of each variant satisfies the invariant (rule R31). -/
theorem invariant_resetOf (v : Variant) : invariant (State.resetOf v) := by
  refine ⟨⟨?_, ?_, Nat.zero_le _⟩, expandTweak_parity none, .inl rfl⟩
  · rw [State.resetOf_ek, List.length_replicate, State.resetOf_variant]
  · rw [State.resetOf_v, List.length_replicate, State.resetOf_variant]

end Sys2Proof.Machine

open Sys2Proof Sys2Proof.Machine Sys2Proof.Safety

/-- Settles O22: each part of the invariant is kept by what a step can do to the registers it speaks of. -/
theorem stepKeepsInvariant : Obligations.StepKeepsInvariant := by
  unfold Obligations.StepKeepsInvariant
  intro s t hs h
  obtain ⟨hshape, hparity, hkey⟩ := hs
  exact ⟨step_keeps_shaped hshape h, step_keeps_tweak_parity hparity h, step_keeps_unkeyed_or_keyed hkey h⟩

/-- Settles O21: right after reset `EK` is all zero and the words of `ET` are zero. -/
theorem invariantHoldsAtReset : Obligations.InvariantHoldsAtReset := by
  unfold Obligations.InvariantHoldsAtReset
  exact ⟨invariant_resetOf Config.instanceVariant, invariant_resetOf⟩

/-- Settles O23: by the cases of what a step can do to `EK` and to `ET`. -/
theorem onlyWritersOfTheRegisterFiles : Obligations.OnlyWritersOfTheRegisterFiles := by
  unfold Obligations.OnlyWritersOfTheRegisterFiles
  intro s t h
  refine ⟨step_keeps_variant h, fun hne => ?_, fun hne => ?_⟩
  · rcases step_ek_cases h with heq | ⟨hreset, -⟩ | ⟨p, rest, hf, hp, -⟩
    · exact absurd heq hne
    · exact .inl hreset
    · exact .inr ⟨p, rest, hf, hp⟩
  · rcases step_et_cases h with heq | ⟨hreset, -⟩ | ⟨tp, p, rest, hf, hp, -⟩
    · exact absurd heq hne
    · exact .inl hreset
    · exact .inr ⟨tp, p, rest, hf, hp⟩

/-- Settles O24: all-zero words break the parity law, an expanded key satisfies it, and both are read off N and `EK`. -/
theorem keyedCanBeReadOffEk : Obligations.KeyedCanBeReadOffEk := by
  unfold Obligations.KeyedCanBeReadOffEk
  refine ⟨fun s ⟨hkeyed, hunkeyed⟩ => not_keyed_of_unkeyed hunkeyed hkeyed, fun _ _ _ => keyed_of_exec_setkey,
    fun _ => rfl, fun s t h hek => keyed_congr (step_keeps_variant h) hek⟩

/-- Settles O29: every value that a step can leave in `ET` is the old one or an expanded tweak. -/
theorem tweakScheduleParity : Obligations.TweakScheduleParity := by
  unfold Obligations.TweakScheduleParity
  exact ⟨fun t0 t1 => expandTweak_parity (some (t0, t1)), rfl, fun _ => expandTweak_parity none,
    fun _ _ => step_keeps_tweak_parity⟩

/-- Settles O13: after reset `EK` is all zero, which the parity law excludes; SETKEY of zeros leaves an expanded key,
whose last word is the constant. -/
theorem resetIsNotTheZeroKey : Obligations.ResetIsNotTheZeroKey := by
  unfold Obligations.ResetIsNotTheZeroKey
  intro v p hp
  have hlen : p.length = 8 * (State.resetOf v).variant.words := by rw [hp, List.length_replicate, State.resetOf_variant]
  refine ⟨?_, not_keyed_of_unkeyed rfl, rfl, _, exec_setkey_of_length hlen, ?_,
    keyed_of_exec_setkey hlen (exec_setkey_of_length hlen)⟩
  · rw [State.resetOf_ek, List.getD_replicate _ (Nat.lt_succ_self _)]
  · subst hp
    cases v <;> decide

/-- Settles O25: a command leaves its writes and one response, and each register has its own writers. -/
theorem frameOfEachCommand : Obligations.FrameOfEachCommand := by
  unfold Obligations.FrameOfEachCommand
  intro i s t h
  obtain rfl := eq_respond_of_exec h
  refine ⟨writes_variant i s, writes_port i s, ⟨responseOf i s, ?_, responseOf_status i s⟩, writes_ek s, writes_et s,
    writes_working s, fun hraise => ?_⟩
  · rw [State.respond_responses, writes_responses]
  · rw [writes_of_raise hraise]
    exact ⟨rfl, rfl, rfl, rfl, rfl⟩
end

section
/-! Proofs of the family other, the encoding: encoding and decoding undo each other, the decoder agrees with the opcode
table, and the headers that end `OK`. -/

namespace Sys2Proof

open Sys2Proof.Machine Sys2Proof.Safety

/-! ### Commands and their parts -/

theorem wellFormed_iff (i : Instr) : WellFormed i = true ↔ i.payload.length ≤ 255 := by
  cases i <;> exact decide_eq_true_iff

/-- A command is its operation applied to its own `tp` and payload. -/
@[simp] theorem command_opcode (i : Instr) : i.opcode.command i.tp i.payload = i := by cases i <;> rfl

@[simp] theorem opcode_command (o : Opcode) (tp : Bool) (p : List Byte) : (o.command tp p).opcode = o := by
  cases o <;> rfl

/-- A command takes over `tp` where only SETTWEAK is given a `tp` of 1. -/
theorem tp_command {o : Opcode} {tp : Bool} (h : tp = true → o = .settweak) (p : List Byte) :
    (o.command tp p).tp = tp := by
  cases tp with
  | true => rw [h rfl]; rfl
  | false => cases o <;> rfl

/-! ### Encoding and decoding -/

/-- Decoding a command's header gives the command, with whatever payload came with it. -/
theorem decode_headerOf (i : Instr) (p : List Byte) : decode (headerOf i) p = .ok (i.opcode.command i.tp p) := by
  rw [decode, decodeHeader_headerOf, tpField_headerOf]

/-- Fetching what the encoder presents gives the command, with the part of its payload that is presented. -/
theorem fetch_encode (i : Instr) (rest : List PortEvent) :
    fetch (encode i ++ rest) = .command (i.opcode.command i.tp (spelled i.payload)) rest := by
  rw [encode, fetch_presentRaw _ _ _ (lenField_headerOf i).symm, decode_headerOf]

/-- Fetching what the encoder presents for a command that can be spelled gives that command. -/
theorem fetch_encode_of_wellFormed {i : Instr} (hi : WellFormed i = true) (rest : List PortEvent) :
    fetch (encode i ++ rest) = .command i rest := by
  rw [fetch_encode, spelled_of_le ((wellFormed_iff i).1 hi), command_opcode]

/-- A header whose reserved bits are zero is written from its fields (rule R61). -/
theorem headerWord_fields {h : Header} (hrsv : rsvField h = 0) :
    headerWord (opField h) (tpField h) (BitVec.ofNat 8 (lenField h)) = h := by
  have hlen : BitVec.ofNat 8 (lenField h) = h.extractLsb' 0 8 := by
    rw [lenField, BitVec.ofNat_toNat, BitVec.setWidth_eq]
  rw [headerWord, hlen, ← hrsv]
  apply BitVec.eq_of_getLsbD_eq
  intro j hj
  simp only [opField, rsvField, tpField, BitVec.getLsbD_append, BitVec.getLsbD_extractLsb', BitVec.getLsbD_ofBool]
  interval_cases j <;> simp

/-- A header that decodes to a command is the header of that command's operation, `tp` and length, and the command's
payload is the one the header came with. -/
theorem header_of_decode {h : Header} {p : List Byte} {i : Instr} (hd : decode h p = .ok i) :
    headerWord i.opcode.code i.tp (BitVec.ofNat 8 (lenField h)) = h ∧ i.payload = p := by
  refine ⟨?_, decode_payload hd⟩
  cases hh : decodeHeader h with
  | error e => rw [decode, hh] at hd; cases hd
  | ok o =>
    obtain ⟨hop, hrsv, htp⟩ := (decodeHeader_ok_iff_fields h o).1 hh
    rw [decode, hh] at hd
    cases hd
    rw [opcode_command, tp_command htp, ← hop, headerWord_fields hrsv]

/-- A command decoded from a header with a payload of the header's length has that header. -/
theorem headerOf_of_decode {h : Header} {p : List Byte} {i : Instr} (hp : p.length = lenField h)
    (hd : decode h p = .ok i) : WellFormed i = true ∧ headerOf i = h := by
  obtain ⟨hheader, rfl⟩ := header_of_decode hd
  have hle : i.payload.length ≤ 255 := by rw [hp, lenField_eq_mod]; omega
  refine ⟨(wellFormed_iff i).2 hle, ?_⟩
  rw [headerOf, spelled_of_le hle, hp, hheader]

/-! ### The opcode table (rule R62) -/

/-- Comparing a header with a pattern under a mask of its high bits is comparing its quotient. -/
theorem and_high_mask_beq_iff (h : Header) {k c : Nat} (hc : c * 2 ^ k < 2 ^ 16) :
    (h &&& BitVec.allOnes 16 <<< k == BitVec.ofNat 16 (c * 2 ^ k)) = true ↔ h.toNat / 2 ^ k = c := by
  have hdiv : h.toNat / 2 ^ k * 2 ^ k < 2 ^ 16 := (Nat.div_mul_le_self _ _).trans_lt h.isLt
  rw [beq_iff_eq, ← BitVec.shiftLeft_ushiftRight, ← BitVec.toNat_inj, BitVec.toNat_shiftLeft,
    BitVec.toNat_ushiftRight, Nat.shiftLeft_eq, Nat.shiftRight_eq_div_pow, Nat.mod_eq_of_lt hdiv, BitVec.toNat_ofNat,
    Nat.mod_eq_of_lt hc, Nat.mul_left_inj (Nat.two_pow_pos k).ne']

/-- The row of an operation in the opcode table. -/
def rowOf : Opcode → OpRow
  | .setkey => ⟨.setkey, 0x1000, 0xFF00⟩
  | .settweak => ⟨.settweak, 0x2000, 0xFE00⟩
  | .encrypt => ⟨.encrypt, 0x3000, 0xFF00⟩
  | .decrypt => ⟨.decrypt, 0x4000, 0xFF00⟩
  | .blksize => ⟨.blksize, 0x5000, 0xFF00⟩

/-- The opcode table has one row for each operation. -/
theorem mem_opTable_iff (r : OpRow) : r ∈ opTable ↔ r = rowOf r.opcode := by
  constructor
  · revert r
    decide
  · intro hr
    rw [hr]
    cases r.opcode <;> decide

/-- A header matches the row of an operation exactly when it decodes to that operation. -/
theorem spells_rowOf_iff (o : Opcode) (h : Header) : (rowOf o).spells h = true ↔ decodeHeader h = .ok o := by
  have hsettweak : (rowOf .settweak).spells h = true ↔ h.toNat / 2 ^ 9 = 0x10 :=
    and_high_mask_beq_iff h (k := 9) (c := 0x10) (by decide)
  have hother (c : Nat) (hc : c < 6) : (h &&& 0xFF00 == BitVec.ofNat 16 (c * 16 * 2 ^ 8)) = true
      ↔ h.toNat / 2 ^ 8 = c * 16 := and_high_mask_beq_iff h (k := 8) (by omega)
  rw [decodeHeader_ok_iff, illegal]
  cases o with
  | setkey => exact (hother 1 (by decide)).trans (by simp [Opcode.code]; omega)
  | settweak => exact hsettweak.trans (by simp [Opcode.code]; omega)
  | encrypt => exact (hother 3 (by decide)).trans (by simp [Opcode.code]; omega)
  | decrypt => exact (hother 4 (by decide)).trans (by simp [Opcode.code]; omega)
  | blksize => exact (hother 5 (by decide)).trans (by simp [Opcode.code]; omega)

/-- A header is illegal exactly when it decodes to no operation. -/
theorem illegal_iff_no_opcode (h : Header) : illegal h ↔ ∀ o, decodeHeader h ≠ .ok o := by
  constructor
  · intro hill o ho
    exact ((decodeHeader_ok_iff h o).1 ho).1 hill
  · intro hnone
    by_contra hlegal
    obtain ⟨o, ho⟩ := exists_opcode_of_legal hlegal
    exact hnone o ((decodeHeader_ok_iff h o).2 ⟨hlegal, ho⟩)

/-! ### The headers that end `OK` (rule R62) -/

/-- Every length that a command wants fits the header's `len` field. -/
theorem inputBytes_le (v : Variant) (i : Instr) : inputBytes v i ≤ 128 := by
  cases i with
  | settweak tp p => cases tp <;> simp [inputBytes]
  | setkey p => cases v <;> simp [inputBytes, Variant.words]
  | encrypt p => cases v <;> simp [inputBytes, Variant.words]
  | decrypt p => cases v <;> simp [inputBytes, Variant.words]
  | blksize p => simp [inputBytes]

/-- The header with which a command ends `OK`: its `len` is the size of rule R42's table. -/
def okHeader (v : Variant) (i : Instr) : Header := headerWord i.opcode.code i.tp (BitVec.ofNat 8 (inputBytes v i))

/-- The six forms of a command that carry the payload `p`. -/
def formsWith (p : List Byte) : List Instr :=
  [.setkey p, .settweak true p, .settweak false p, .encrypt p, .decrypt p, .blksize p]

theorem mem_formsWith_iff (p : List Byte) (i : Instr) : i ∈ formsWith p ↔ i.payload = p := by
  cases i with
  | settweak tp q => cases tp <;> simp [formsWith, Instr.payload]
  | setkey q => simp [formsWith, Instr.payload]
  | encrypt q => simp [formsWith, Instr.payload]
  | decrypt q => simp [formsWith, Instr.payload]
  | blksize q => simp [formsWith, Instr.payload]

theorem lenField_okHeader (v : Variant) (i : Instr) : lenField (okHeader v i) = inputBytes v i := by
  have hle : inputBytes v i ≤ 128 := inputBytes_le v i
  rw [okHeader, lenField_headerWord, BitVec.toNat_ofNat, Nat.mod_eq_of_lt (by omega)]

theorem decode_okHeader (v : Variant) (i : Instr) : decode (okHeader v i) i.payload = .ok i := by
  have hh : decodeHeader (okHeader v i) = .ok i.opcode := by
    rw [okHeader, decodeHeader_ok_iff_fields]
    cases i <;> simp [Instr.opcode, Instr.tp]
  rw [decode, hh, okHeader, tpField_headerWord]
  exact congrArg Except.ok (command_opcode i)

/-- A presentation with a payload of the header's length ends `OK` exactly when the header is that of one of the six
forms with the length it wants. -/
theorem presentedStatus_ok_iff {h : Header} {p : List Byte} (hp : p.length = lenField h) (v : Variant) :
    presentedStatus v h p = .ok ↔ h ∈ (formsWith p).map (okHeader v) := by
  rw [List.mem_map]
  constructor
  · intro hok
    cases hd : decode h p with
    | error e => rw [presentedStatus, hd] at hok; cases hok
    | ok i =>
      obtain ⟨hheader, hpayload⟩ := header_of_decode hd
      rw [presentedStatus_of_decode hd, statusOf_ok_iff, hpayload, hp] at hok
      exact ⟨i, (mem_formsWith_iff p i).2 hpayload, by rw [okHeader, ← hok, hheader]⟩
  · rintro ⟨i, hi, rfl⟩
    obtain rfl := (mem_formsWith_iff p i).1 hi
    rw [presentedStatus_of_decode (decode_okHeader v i), statusOf_ok_iff, hp, lenField_okHeader]

end Sys2Proof

open Sys2Proof Sys2Proof.Machine Sys2Proof.Safety

/-- Settles O2: the encoder's header decodes to the command, and its beats carry the payload. -/
theorem decodeInvertsEncode : Obligations.DecodeInvertsEncode := by
  unfold Obligations.DecodeInvertsEncode
  intro i rest hi
  exact fetch_encode_of_wellFormed hi rest

/-- Settles O3: what is fetched is decoded from the header, whose fields are then the command's. -/
theorem encodeInvertsDecode : Obligations.EncodeInvertsDecode := by
  unfold Obligations.EncodeInvertsDecode
  intro h beats rest i hl hf
  rw [fetch_presentation h beats rest hl] at hf
  cases hd : decode h (unpackBeats (lenField h) beats) with
  | error e => rw [hd] at hf; cases hf
  | ok j =>
    rw [hd] at hf
    cases hf
    obtain ⟨hwf, hheader⟩ := headerOf_of_decode (unpackBeats_length _ _ hl) hd
    exact ⟨hwf, hheader, decode_payload hd⟩

/-- Settles O5: a header matches the row of an operation exactly when it decodes to it, so it matches at most one row,
and none exactly when it is illegal. -/
theorem opcodeTableRows : Obligations.OpcodeTableRows := by
  unfold Obligations.OpcodeTableRows
  intro h
  have hrow (o : Opcode) : rowOf o ∈ opTable := by cases o <;> decide
  have hspells {r : OpRow} (hr : r ∈ opTable) : r.spells h = true ↔ decodeHeader h = .ok r.opcode := by
    rw [← spells_rowOf_iff, ← (mem_opTable_iff r).1 hr]
  refine ⟨fun o => ⟨fun ho => ?_, ?_⟩, fun r hr q hq hrs hqs => ?_, ?_⟩
  · exact ⟨rowOf o, hrow o, by cases o <;> rfl, (spells_rowOf_iff o h).2 ho⟩
  · rintro ⟨r, hr, rfl, hs⟩
    exact (hspells hr).1 hs
  · have hop : r.opcode = q.opcode := Except.ok.inj (((hspells hr).1 hrs).symm.trans ((hspells hq).1 hqs))
    rw [(mem_opTable_iff r).1 hr, (mem_opTable_iff q).1 hq, hop]
  · rw [illegal_iff_no_opcode]
    constructor
    · intro hnone r hr
      exact Bool.eq_false_iff.2 fun hs => hnone _ ((hspells hr).1 hs)
    · intro hnone o ho
      exact Bool.eq_false_iff.1 (hnone _ (hrow o)) ((spells_rowOf_iff o h).2 ho)

/-- Settles O6: the headers listed are those of the six forms of a command with the length each wants. -/
theorem okHeadersInFull : Obligations.OkHeadersInFull := by
  unfold Obligations.OkHeadersInFull
  intro v h p hp
  have hforms : (formsWith p).map (okHeader v) = (formsWith []).map (okHeader v) := rfl
  rw [presentedStatus_ok_iff hp, hforms]
  cases v <;> exact iff_of_eq (congrArg (h ∈ ·) (by decide))
end

section
/-! Proofs of the family other, the port and the step: whole, cut off and overlapped presentations, and what follows a
command that fails. -/

namespace Sys2Proof

open Sys2Proof.Machine

/-- Where taking beats is cut off after some, nothing that came before matters. -/
theorem takeBeats_append_of_cut {m : Nat} {es : List PortEvent} {cut : BeatsTaken} (hm : takeBeats m es = cut)
    (hcut : ∀ ws rest, cut ≠ .complete ws rest) (beats : List Word) :
    takeBeats (beats.length + m) (beats.map .beat ++ es) = cut := by
  induction beats with
  | nil => simpa using hm
  | cons w ws ih =>
    rw [List.length_cons, Nat.add_right_comm]
    simp only [List.map_cons, List.cons_append, takeBeats, ih]
    cases cut with
    | complete ws rest => exact absurd rfl (hcut ws rest)
    | waiting => rfl
    | reset rest => rfl
    | overlapped => rfl

section Lacking

variable {h : Header} {beats : List Word} (hl : beats.length < beatCount (lenField h))
include hl

/-- A header amid a payload is an overlapped presentation. -/
theorem fetch_header_of_lacking (g : Header) (rest : List PortEvent) :
    fetch (.header h :: (beats.map .beat ++ .header g :: rest)) = .overlapped := by
  obtain ⟨m, hm⟩ := Nat.exists_eq_add_of_lt hl
  rw [fetch, hm, Nat.add_assoc, takeBeats_append_of_cut (cut := .overlapped) rfl nofun]

/-- A reset amid a payload is a reset. -/
theorem fetch_reset_of_lacking (rest : List PortEvent) :
    fetch (.header h :: (beats.map .beat ++ .reset :: rest)) = .reset rest := by
  obtain ⟨m, hm⟩ := Nat.exists_eq_add_of_lt hl
  rw [fetch, hm, Nat.add_assoc, takeBeats_append_of_cut (cut := .reset rest) rfl nofun]

/-- While beats are lacking the engine waits. -/
theorem fetch_of_lacking : fetch (.header h :: beats.map .beat) = .waiting := by
  obtain ⟨m, hm⟩ := Nat.exists_eq_add_of_lt hl
  have hcut := takeBeats_append_of_cut (m := m + 1) (es := []) (cut := .waiting) rfl nofun beats
  rw [List.append_nil] at hcut
  rw [fetch, hm, Nat.add_assoc, hcut]

end Lacking

end Sys2Proof

namespace Sys2Proof.Machine

open Sys2Proof.Safety

/-- A step on a whole presentation that decodes carries out its command, whatever the lanes past the payload's end
hold. -/
theorem step_of_presentation {s : State} {h : Header} {beats : List Word} {rest : List PortEvent} {i : Instr}
    (hport : s.port = .header h :: (beats.map .beat ++ rest)) (hl : beats.length = beatCount (lenField h))
    (hd : decode h (unpackBeats (lenField h) beats) = .ok i) : step s = exec i (s.setPort rest) := by
  have hf : fetch s.port = .command i rest := by rw [hport, fetch_presentation h beats rest hl, hd]
  exact step_of_fetch hf

/-! ### The fault of a step's response (rule R174) -/

theorem checkedStep_of_fault {s t : State} {r : Response} {f : Fault} (h : step s = .next t)
    (hnew : newResponses s t = [r]) (hf : faultOf r.status = some f) : checkedStep s = .fault f := by
  simp [checkedStep, h, hnew, hf]

theorem checkedStep_of_no_fault {s t : State} {r : Response} (h : step s = .next t)
    (hnew : newResponses s t = [r]) (hf : faultOf r.status = none) : checkedStep s = .next t := by
  simp [checkedStep, h, hnew, hf]

/-- A checked step that answers a next state is a step none of whose responses is a fault. -/
theorem step_of_checkedStep {s t : State} (h : checkedStep s = .next t) :
    step s = .next t ∧ ∀ r ∈ newResponses s t, faultOf r.status = none := by
  unfold checkedStep at h
  cases hs : step s with
  | next u =>
    rw [hs] at h
    cases hf : (newResponses s u).findSome? fun r => faultOf r.status with
    | some f => simp [hf] at h
    | none =>
      obtain rfl : u = t := by simpa [hf] using h
      exact ⟨rfl, List.findSome?_eq_none_iff.1 hf⟩
  | fault f => rw [hs] at h; cases h
  | refused f => rw [hs] at h; cases h

/-- The responses after a step are those before it and the new ones. -/
theorem responses_of_step {s t : State} (h : step s = .next t) : t.responses = s.responses ++ newResponses s t :=
  (List.prefix_iff_eq_append.1 (step_keeps_responses h)).symm

/-- Whether a run has faulted, after a step: it had before, or a new response is a fault. -/
theorem faulted_of_step {s t : State} (h : step s = .next t) :
    faulted t = (faulted s || (newResponses s t).any fun r => (faultOf r.status).isSome) := by
  rw [faulted, responses_of_step h, List.any_append, faulted]

/-! ### Responses do not matter to what follows -/

/-- The response to a command is a function of N, `EK`, `ET` and the payload. -/
theorem responseOf_congr {s t : State} (hv : s.variant = t.variant) (hek : s.ek = t.ek) (het : s.et = t.et)
    (i : Instr) : responseOf i s = responseOf i t := by
  cases i <;> simp only [responseOf, hv, hek, het]

/-- What a command writes does not depend on the responses given before. -/
theorem writes_respond (i : Instr) (s : State) (st : Status) (p : List Byte) :
    writes i (s.respond st p) = (writes i s).respond st p := by
  unfold writes
  rw [apply_ite (State.respond · st p)]
  refine if_congr Iff.rfl ?_ rfl
  cases i <;> rfl

/-- The response to a command does not depend on the responses given before. -/
@[simp] theorem responseOf_respond (i : Instr) (s : State) (st : Status) (p : List Byte) :
    responseOf i (s.respond st p) = responseOf i s := responseOf_congr (s := s.respond st p) (t := s) rfl rfl rfl i

@[simp] theorem responseOf_raise (i : Instr) (s : State) (st : Status) : responseOf i (s.raise st) = responseOf i s :=
  responseOf_respond i s st []

end Sys2Proof.Machine

open Sys2Proof Sys2Proof.Machine Sys2Proof.Safety

/-- Settles O9: fetching a whole presentation gives the command it decodes to. -/
theorem stepRunsDecodedCommand : Obligations.StepRunsDecodedCommand := by
  unfold Obligations.StepRunsDecodedCommand
  intro s h beats rest i
  exact step_of_presentation

/-- Settles O10: an illegal header is raised, and a command gives its one response. -/
theorem everyPresentationIsAnswered : Obligations.EveryPresentationIsAnswered := by
  unfold Obligations.EveryPresentationIsAnswered
  intro s h beats rest hport hl
  cases hd : decode h (unpackBeats (lenField h) beats) with
  | error e =>
    have hill : illegal h := (decode_error_iff h _).1 ⟨e, hd⟩
    exact ⟨_, ⟨.illegalCommand, []⟩, step_of_illegal hill hport hl, rfl, rfl,
      (presentedStatus_of_illegal hill s.variant _).symm⟩
  | ok i =>
    have hstep := (step_of_presentation hport hl hd).trans (exec_eq_respond i (s.setPort rest))
    refine ⟨_, responseOf i (s.setPort rest), hstep, ?_, ?_, ?_⟩
    · rw [State.respond_port, writes_port, State.setPort_port]
    · rw [State.respond_responses, writes_responses, State.setPort_responses]
    · rw [responseOf_status, presentedStatus_of_decode hd, State.setPort_variant]

/-- Settles O11: taking beats stops at the header that comes too early, and waits where nothing comes. -/
theorem overlappedPresentationHasNoStep : Obligations.OverlappedPresentationHasNoStep := by
  unfold Obligations.OverlappedPresentationHasNoStep
  intro s h g w beats rest hl
  refine ⟨fun hport => ?_, fun hport => ?_, fun hport => ?_⟩
  · exact step_of_fetch (f := .overlapped) (hport ▸ fetch_header_of_lacking hl g rest)
  · exact step_of_fetch (f := .strayBeat) (hport ▸ rfl)
  · exact step_of_fetch (f := .waiting) (hport ▸ fetch_of_lacking hl)

/-- Settles O12: a reset is fetched in both places, and the reset event clears the register files. -/
theorem resetFromAnyState : Obligations.ResetFromAnyState := by
  unfold Obligations.ResetFromAnyState
  intro s h beats rest hport
  have hf : fetch s.port = .reset rest := by
    rcases hport with hport | ⟨hl, hport⟩
    · rw [hport, fetch]
    · rw [hport, fetch_reset_of_lacking hl]
  exact ⟨_, step_of_fetch hf, rfl, rfl, rfl, rfl, rfl⟩

/-- Settles O18: a failed command leaves the state but for its response, which no command reads. -/
theorem statusIsNotKept : Obligations.StatusIsNotKept := by
  unfold Obligations.StatusIsNotKept
  refine ⟨?_, ?_⟩
  · intro s t u i j hraise ht hu
    obtain rfl := Host.Outcome.next.inj (ht.symm.trans (exec_of_raise hraise))
    obtain rfl := eq_respond_of_exec hu
    refine ⟨_, exec_eq_after j _, ?_, ?_⟩
    · rw [after_eq_respond, responseOf_raise, State.raise, writes_respond]
      rfl
    · rw [newResponses_after, newResponses_of_exec (exec_eq_respond j s), responseOf_raise]
  · intro s p q hp hq
    refine ⟨_, _, exec_setkey_of_length_ne hp, exec_eq_after _ _, ?_⟩
    rw [newResponses_after, responseOf_raise, responseOf_encrypt hq]

/-- Settles O19: the one response of the presentation has its status, and the status names the fault. -/
theorem contractViolationsFaultARun : Obligations.ContractViolationsFaultARun := by
  unfold Obligations.ContractViolationsFaultARun
  intro s h p rest hp hport
  obtain ⟨t, r, hstep, hnew, hstatus⟩ := step_of_presentRaw_answers hp hport
  rw [← hstatus]
  refine ⟨fun hst => ?_, fun hst => ?_, fun hst => ?_, fun hst => ?_⟩
  · exact checkedStep_of_fault hstep hnew (hst ▸ rfl)
  · exact checkedStep_of_fault hstep hnew (hst ▸ rfl)
  · rw [hstep]
    exact checkedStep_of_no_fault hstep hnew (hst ▸ rfl)
  · have hraise : presentedStatus s.variant h p = .invalidKeySize := hstatus.symm.trans hst
    rw [checkedStep_of_no_fault hstep hnew (hst ▸ rfl), ← hstep, ← hraise]
    exact step_of_presentRaw_raises hp hport (by rw [hraise]; decide)

/-- Settles O20: responses are only added, and a checked step adds none that is a fault. -/
theorem faultedRunsStayFaulted : Obligations.FaultedRunsStayFaulted := by
  unfold Obligations.FaultedRunsStayFaulted
  refine ⟨fun s t h hs => ?_, fun s t h hs => ?_⟩
  · rw [faulted_of_step h, hs, Bool.true_or]
  · obtain ⟨hstep, hnone⟩ := step_of_checkedStep h
    rw [faulted_of_step hstep, hs, Bool.false_or, List.any_eq_false]
    intro r hr
    simp [hnone r hr]
end

section
/-! Proofs of the family other, the round engine: each thing the engine does to the working words can be undone, so the
written-out schedule can, and the two loops are that schedule. -/

namespace Sys2Proof.Machine

/-! ### MIX and UNMIX (rules R108 to R111) -/

/-- A rotation left by an amount in use is undone by the rotation right by it. -/
theorem rotr64_rotl64 (x : Word) {r : Nat} (hlo : 1 ≤ r) (hhi : r ≤ 63) : rotr64 (rotl64 x r) r = x := by
  apply BitVec.eq_of_getLsbD_eq
  intro j hj
  have hback : ((j + r) % 64 + (64 - r)) % 64 = j := by omega
  have hbit := rotl64_getLsbD (rotl64 x r) (r := 64 - r) (i := (j + r) % 64) (by omega) (by omega) (by omega)
  rw [hback, rotl64_getLsbD x hlo hhi hj] at hbit
  rw [rotr64_eq_rotl64 _ (by omega), hbit]

/-- A rotation right by an amount in use is undone by the rotation left by it. -/
theorem rotl64_rotr64 (x : Word) {r : Nat} (hlo : 1 ≤ r) (hhi : r ≤ 63) : rotl64 (rotr64 x r) r = x := by
  have hleft (y : Word) : rotl64 y r = rotr64 y (64 - r) := by
    rw [rotr64_eq_rotl64 y (by omega), Nat.sub_sub_self (by omega)]
  rw [hleft, rotr64_eq_rotl64 x (by omega)]
  exact rotr64_rotl64 x (by omega) (by omega)

theorem unmixPair_mixPair (e o : Word) {r : Nat} (hlo : 1 ≤ r) (hhi : r ≤ 63) :
    unmixPair (mixPair e o r).1 (mixPair e o r).2 r = (e, o) := by
  have hodd : (e + o) ^^^ (rotl64 o r ^^^ (e + o)) = rotl64 o r := by
    rw [BitVec.xor_comm, BitVec.xor_assoc, BitVec.xor_self, BitVec.xor_zero]
  rw [mixPair, unmixPair, hodd, rotr64_rotl64 o hlo hhi, BitVec.add_sub_cancel]

theorem mixPair_unmixPair (e o : Word) {r : Nat} (hlo : 1 ≤ r) (hhi : r ≤ 63) :
    mixPair (unmixPair e o r).1 (unmixPair e o r).2 r = (e, o) := by
  have hodd : (e ^^^ o) ^^^ e = o := by
    rw [BitVec.xor_comm, ← BitVec.xor_assoc, BitVec.xor_self, BitVec.zero_xor]
  rw [unmixPair, mixPair, rotl64_rotr64 _ hlo hhi, BitVec.sub_add_cancel, hodd]

/-- A map of pairs: pair j by the function with amount j of the row. -/
def mapPairs (f : Word → Word → Nat → Word × Word) : List Nat → List Word → List Word
  | r :: row, e :: o :: ws => (f e o r).1 :: (f e o r).2 :: mapPairs f row ws
  | _, ws => ws

theorem mixWords_eq_mapPairs (row : List Nat) (ws : List Word) : mixWords row ws = mapPairs mixPair row ws := by
  fun_induction mixWords row ws with
  | case1 r row e o ws ih => rw [ih, mapPairs]
  | case2 row ws hne => rw [mapPairs]; exact hne

theorem unmixWords_eq_mapPairs (row : List Nat) (ws : List Word) : unmixWords row ws = mapPairs unmixPair row ws := by
  fun_induction unmixWords row ws with
  | case1 r row e o ws ih => rw [ih, mapPairs]
  | case2 row ws hne => rw [mapPairs]; exact hne

/-- Each pair is mapped by itself. -/
theorem mapPairs_getD (f : Word → Word → Nat → Word × Word) {row : List Nat} {ws : List Word} {j : Nat}
    (hrow : j < row.length) (hws : 2 * j + 1 < ws.length) :
    ((mapPairs f row ws).getD (2 * j) 0, (mapPairs f row ws).getD (2 * j + 1) 0)
      = f (ws.getD (2 * j) 0) (ws.getD (2 * j + 1) 0) (row.getD j 0) := by
  induction row generalizing ws j with
  | nil => simp at hrow
  | cons r row ih =>
    match ws, hws with
    | e :: o :: ws, hws =>
      cases j with
      | zero => rfl
      | succ j =>
        have htail := ih (ws := ws) (j := j) (by simpa using hrow) (by simp at hws; omega)
        simpa [mapPairs, Nat.mul_add] using htail

/-- A map of pairs is undone by another that undoes it on each pair, with the amounts of the row. -/
theorem mapPairs_mapPairs {f g : Word → Word → Nat → Word × Word} {row : List Nat}
    (hgf : ∀ r ∈ row, ∀ e o, g (f e o r).1 (f e o r).2 r = (e, o)) (ws : List Word) :
    mapPairs g row (mapPairs f row ws) = ws := by
  fun_induction mapPairs f row ws with
  | case1 r row e o ws ih =>
    have hpair := hgf r (by simp) e o
    rw [mapPairs, hpair, ih fun q hq => hgf q (by simp [hq])]
  | case2 row ws hne => rw [mapPairs]; exact hne

/-- The rotation amounts of a round are in 1..63. -/
theorem rotRow_range (v : Variant) (d : Nat) : ∀ r ∈ rotRow v d, 1 ≤ r ∧ r ≤ 63 := by
  intro r hr
  have hrow : rotRow v d ∈ rotTable v ∨ rotRow v d = [] := by
    rw [rotRow, List.getD_eq_getElem?_getD]
    cases hget : (rotTable v)[d % 8]? with
    | none => exact .inr rfl
    | some row => exact .inl (List.mem_of_getElem? hget)
  rcases hrow with hmem | hnil
  · obtain ⟨hlo, hhi⟩ := rotTable_range v _ hmem r hr
    omega
  · rw [hnil] at hr
    cases hr

/-- A row has one amount for each pair of words. -/
theorem rotRow_length (v : Variant) (d : Nat) : (rotRow v d).length = v.words / 2 := by
  have hrows : ∀ k < 8, ((rotTable v).getD k []).length = v.words / 2 := by cases v <;> decide
  exact hrows (d % 8) (Nat.mod_lt _ (by decide))

theorem unmixWords_mixWords (v : Variant) (d : Nat) (ws : List Word) :
    unmixWords (rotRow v d) (mixWords (rotRow v d) ws) = ws := by
  rw [mixWords_eq_mapPairs, unmixWords_eq_mapPairs]
  refine mapPairs_mapPairs (fun r hr e o => ?_) ws
  obtain ⟨hlo, hhi⟩ := rotRow_range v d r hr
  exact unmixPair_mixPair e o hlo hhi

theorem mixWords_unmixWords (v : Variant) (d : Nat) (ws : List Word) :
    mixWords (rotRow v d) (unmixWords (rotRow v d) ws) = ws := by
  rw [mixWords_eq_mapPairs, unmixWords_eq_mapPairs]
  refine mapPairs_mapPairs (fun r hr e o => ?_) ws
  obtain ⟨hlo, hhi⟩ := rotRow_range v d r hr
  exact mixPair_unmixPair e o hlo hhi

/-! ### PERMUTE and UNPERMUTE (rules R104, R112 and R113) -/

/-- The permutation tables are inverse to each other, and their entries are places of words. -/
theorem perm_invPerm (v : Variant) : ∀ i < v.words,
    (perm v).getD i 0 < v.words ∧ (invPerm v).getD i 0 < v.words
      ∧ (invPerm v).getD ((perm v).getD i 0) 0 = i ∧ (perm v).getD ((invPerm v).getD i 0) 0 = i := by
  cases v <;> decide

theorem permuteWords_getD {table : List Nat} {i : Nat} (hi : i < table.length) (ws : List Word) :
    (permuteWords table ws).getD i 0 = ws.getD (table.getD i 0) 0 := by
  simp [permuteWords, List.getD_eq_getElem?_getD, hi]

theorem unpermute_permute_words {v : Variant} {ws : List Word} (h : ws.length = v.words) :
    permuteWords (invPerm v) (permuteWords (perm v) ws) = ws := by
  refine list_eq_of_getD 0 (by simp [h]) fun i hi => ?_
  rw [permuteWords_length, invPerm_length] at hi
  obtain ⟨-, hinv, -, hback⟩ := perm_invPerm v i hi
  rw [permuteWords_getD (by simpa using hi), permuteWords_getD (by simpa using hinv), hback]

theorem permute_unpermute_words {v : Variant} {ws : List Word} (h : ws.length = v.words) :
    permuteWords (perm v) (permuteWords (invPerm v) ws) = ws := by
  refine list_eq_of_getD 0 (by simp [h]) fun i hi => ?_
  rw [permuteWords_length, perm_length] at hi
  obtain ⟨hperm, -, hback, -⟩ := perm_invPerm v i hi
  rw [permuteWords_getD (by simpa using hi), permuteWords_getD (by simpa using hperm), hback]

/-! ### INJECT and UNINJECT (rules R105 to R107) -/

theorem addWords_getD {ws ks : List Word} (hl : ks.length = ws.length) {i : Nat} (hi : i < ws.length) :
    (addWords ws ks).getD i 0 = ws.getD i 0 + ks.getD i 0 := by
  simp [addWords, List.getD_eq_getElem?_getD, hi, hl]

theorem subWords_getD {ws ks : List Word} (hl : ks.length = ws.length) {i : Nat} (hi : i < ws.length) :
    (subWords ws ks).getD i 0 = ws.getD i 0 - ks.getD i 0 := by
  simp [subWords, List.getD_eq_getElem?_getD, hi, hl]

@[simp] theorem addWords_length {ws ks : List Word} (hl : ks.length = ws.length) :
    (addWords ws ks).length = ws.length := by simp [addWords, hl]

@[simp] theorem subWords_length {ws ks : List Word} (hl : ks.length = ws.length) :
    (subWords ws ks).length = ws.length := by simp [subWords, hl]

theorem subWords_addWords {ws ks : List Word} (hl : ks.length = ws.length) : subWords (addWords ws ks) ks = ws := by
  have hlen : (addWords ws ks).length = ws.length := addWords_length hl
  refine list_eq_of_getD 0 ((subWords_length (hl.trans hlen.symm)).trans hlen) fun i hi => ?_
  rw [subWords_length (hl.trans hlen.symm), hlen] at hi
  rw [subWords_getD (hl.trans hlen.symm) (hlen ▸ hi), addWords_getD hl hi, BitVec.add_sub_cancel]

theorem addWords_subWords {ws ks : List Word} (hl : ks.length = ws.length) : addWords (subWords ws ks) ks = ws := by
  have hlen : (subWords ws ks).length = ws.length := subWords_length hl
  refine list_eq_of_getD 0 ((addWords_length (hl.trans hlen.symm)).trans hlen) fun i hi => ?_
  rw [addWords_length (hl.trans hlen.symm), hlen] at hi
  rw [addWords_getD (hl.trans hlen.symm) (hlen ▸ hi), subWords_getD hl hi, BitVec.sub_add_cancel]

/-! ### The engine's steps on the state, and undoing them -/

namespace EngineStep

variable (e : EngineStep) (s : State)

/-- A step of the engine writes the working registers and nothing else. -/
theorem apply_eq_setV : e.apply s = s.setV (e.apply s).v := by cases e <;> rfl
theorem undo_eq_setV : e.undo s = s.setV (e.undo s).v := by cases e <;> rfl

/-- The round index does not matter to a step of the engine. -/
theorem apply_setD (n : Nat) : e.apply (s.setD n) = (e.apply s).setD n := by cases e <;> rfl
theorem undo_setD (n : Nat) : e.undo (s.setD n) = (e.undo s).setD n := by cases e <;> rfl

@[simp] theorem apply_variant : (e.apply s).variant = s.variant := by rw [apply_eq_setV, State.setV_variant]
@[simp] theorem undo_variant : (e.undo s).variant = s.variant := by rw [undo_eq_setV, State.setV_variant]

variable {s} (h : s.v.length = s.variant.words)
include h

theorem subkey_length_eq (c : Nat) : (s.subkey c).length = s.v.length := by rw [State.subkey_length, h]

theorem apply_length : (e.apply s).v.length = (e.apply s).variant.words := by
  rw [apply_variant, ← h]
  cases e with
  | inject c => exact addWords_length (subkey_length_eq h c)
  | mixLayer d => exact mixWords_length _ _
  | permute => exact (permuteWords_length _ _).trans ((perm_length _).trans h.symm)

theorem undo_length : (e.undo s).v.length = (e.undo s).variant.words := by
  rw [undo_variant, ← h]
  cases e with
  | inject c => exact subWords_length (subkey_length_eq h c)
  | mixLayer d => exact unmixWords_length _ _
  | permute => exact (permuteWords_length _ _).trans ((invPerm_length _).trans h.symm)

/-- Undoing what was done gives the state before it. -/
theorem undo_apply : e.undo (e.apply s) = s := by
  rw [undo_eq_setV]
  cases e with
  | inject c => exact congrArg s.setV (subWords_addWords (subkey_length_eq h c))
  | mixLayer d => exact congrArg s.setV (unmixWords_mixWords s.variant d s.v)
  | permute => exact congrArg s.setV (unpermute_permute_words h)

/-- Doing what was undone gives the state before it. -/
theorem apply_undo : e.apply (e.undo s) = s := by
  rw [apply_eq_setV]
  cases e with
  | inject c => exact congrArg s.setV (addWords_subWords (subkey_length_eq h c))
  | mixLayer d => exact congrArg s.setV (mixWords_unmixWords s.variant d s.v)
  | permute => exact congrArg s.setV (permute_unpermute_words h)

end EngineStep

/-! ### Sequences of the engine's steps -/

/-- Doing a sequence of steps, first step first. -/
def applyAll (es : List EngineStep) (s : State) : State := es.foldl (fun t e => e.apply t) s

/-- Undoing a sequence of steps, last step first. -/
def undoAll (es : List EngineStep) (s : State) : State := es.reverse.foldl (fun t e => e.undo t) s

section Sequences

variable (es fs : List EngineStep) (e : EngineStep) (s : State)

theorem applyAll_cons : applyAll (e :: es) s = applyAll es (e.apply s) := rfl

theorem undoAll_cons : undoAll (e :: es) s = e.undo (undoAll es s) := by simp [undoAll]

theorem applyAll_append : applyAll (es ++ fs) s = applyAll fs (applyAll es s) := List.foldl_append

theorem undoAll_append : undoAll (es ++ fs) s = undoAll es (undoAll fs s) := by simp [undoAll]

theorem applyAll_eq_setV : applyAll es s = s.setV (applyAll es s).v := by
  induction es generalizing s with
  | nil => rfl
  | cons e es ih => rw [applyAll_cons, ih, EngineStep.apply_eq_setV, State.setV_setV, State.setV_v]

theorem undoAll_eq_setV : undoAll es s = s.setV (undoAll es s).v := by
  induction es with
  | nil => rfl
  | cons e es ih => rw [undoAll_cons, EngineStep.undo_eq_setV, ih, State.setV_setV, State.setV_v]

theorem applyAll_setD (n : Nat) : applyAll es (s.setD n) = (applyAll es s).setD n := by
  induction es generalizing s with
  | nil => rfl
  | cons e es ih => rw [applyAll_cons, applyAll_cons, EngineStep.apply_setD, ih]

theorem undoAll_setD (n : Nat) : undoAll es (s.setD n) = (undoAll es s).setD n := by
  induction es with
  | nil => rfl
  | cons e es ih => rw [undoAll_cons, undoAll_cons, ih, EngineStep.undo_setD]

variable {s} (h : s.v.length = s.variant.words)
include h

theorem undoAll_length : (undoAll es s).v.length = (undoAll es s).variant.words := by
  induction es with
  | nil => exact h
  | cons e es ih =>
    rw [undoAll_cons]
    exact e.undo_length ih

/-- A sequence that was done can be undone. -/
theorem undoAll_applyAll : undoAll es (applyAll es s) = s := by
  induction es generalizing s with
  | nil => rfl
  | cons e es ih => rw [undoAll_cons, applyAll_cons, ih (e.apply_length h), e.undo_apply h]

/-- A sequence that was undone can be done again. -/
theorem applyAll_undoAll : applyAll es (undoAll es s) = s := by
  induction es with
  | nil => rfl
  | cons e es ih => rw [undoAll_cons, applyAll_cons, e.apply_undo (undoAll_length es h), ih]

end Sequences

/-! ### Rounds and the schedule (rules R114 to R118) -/

/-- The steps of round d. -/
def roundSteps (d : Nat) : List EngineStep :=
  if d % 4 = 0 then [.inject (d / 4), .mixLayer d, .permute] else [.mixLayer d, .permute]

theorem round_eq_applyAll (s : State) (d : Nat) : s.round d = applyAll (roundSteps d) s := by
  unfold State.round roundSteps
  split <;> rfl

theorem unround_eq_undoAll (s : State) (d : Nat) : s.unround d = undoAll (roundSteps d) s := by
  unfold State.unround roundSteps
  split <;> rfl

/-- The steps of n rounds from round d on. -/
def roundsFrom (d n : Nat) : List EngineStep := (List.range' d n).flatMap roundSteps

theorem roundsFrom_succ (d n : Nat) : roundsFrom d (n + 1) = roundSteps d ++ roundsFrom (d + 1) n := by
  rw [roundsFrom, List.range'_succ, List.flatMap_cons, roundsFrom]

theorem roundsFrom_succ_last (d n : Nat) : roundsFrom d (n + 1) = roundsFrom d n ++ roundSteps (d + n) := by
  rw [roundsFrom, List.range'_1_concat, List.flatMap_append, List.flatMap_singleton, roundsFrom]

/-- ENCRYPT_CORE's loop does the rounds from `d` on. -/
theorem rounds_eq_applyAll (n : Nat) (s : State) :
    State.rounds n s = (applyAll (roundsFrom s.d n) s).setD (s.d + n) := by
  induction n generalizing s with
  | zero => rfl
  | succ n ih =>
    rw [State.rounds, ih, State.setD_d, applyAll_setD, round_eq_applyAll, roundsFrom_succ, applyAll_append,
      Nat.add_right_comm, Nat.add_assoc]
    rfl

/-- DECRYPT_CORE's loop undoes the rounds below `d`. -/
theorem unrounds_eq_undoAll (n : Nat) {s : State} (hd : s.d = n) :
    State.unrounds n s = (undoAll (roundsFrom 0 n) s).setD 0 := by
  induction n generalizing s with
  | zero => exact congrArg (State.setD s) hd
  | succ n ih =>
    have hpred : s.d - 1 = n := by omega
    rw [State.unrounds, hpred, unround_eq_undoAll, undoAll_setD, ih (State.setD_d _ n), undoAll_setD,
      roundsFrom_succ_last, undoAll_append, Nat.zero_add]
    rfl

/-- Four rounds from a cycle boundary are an injection and the rounds of the cycle. -/
theorem roundsFrom_cycle (c : Nat) : roundsFrom (4 * c) 4 = .inject c :: cycleRounds c := by
  have h0 : 4 * c % 4 = 0 := by omega
  have h1 : (4 * c + 1) % 4 = 1 := by omega
  have h2 : (4 * c + 2) % 4 = 2 := by omega
  have h3 : (4 * c + 3) % 4 = 3 := by omega
  simp [roundsFrom, roundSteps, cycleRounds, List.range', List.range, List.range.loop, h0, h1, h2, h3]

theorem roundsFrom_add (d m n : Nat) : roundsFrom d (m + n) = roundsFrom d m ++ roundsFrom (d + m) n := by
  rw [roundsFrom, ← List.range'_append_1, List.flatMap_append, roundsFrom, roundsFrom]

/-- The first `4*k` rounds are k cycles. -/
theorem roundsFrom_cycles (k : Nat) :
    roundsFrom 0 (4 * k) = (List.range k).flatMap fun c => .inject c :: cycleRounds c := by
  induction k with
  | zero => rfl
  | succ k ih =>
    rw [Nat.mul_succ, roundsFrom_add, ih, Nat.zero_add, roundsFrom_cycle, List.range_succ, List.flatMap_append,
      List.flatMap_singleton]

/-- The schedule is all rounds, and the last injection. -/
theorem encryptSchedule_eq (v : Variant) :
    encryptSchedule v = roundsFrom 0 (roundCount v) ++ [.inject (roundCount v / 4)] := by
  have hcycles : roundCount v = 4 * (roundCount v / 4) := by cases v <;> rfl
  rw [encryptSchedule, ← roundsFrom_cycles, ← hcycles]

/-- ENCRYPT_CORE does the schedule. -/
theorem encryptCore_eq_applyAll (s : State) (b : List Word) :
    s.encryptCore b = (applyAll (encryptSchedule s.variant) (s.setV b)).setD (roundCount s.variant) := by
  rw [State.encryptCore, rounds_eq_applyAll, State.setD_d, Nat.zero_add, encryptSchedule_eq, applyAll_append,
    applyAll_setD]
  rfl

/-- DECRYPT_CORE undoes the schedule. -/
theorem decryptCore_eq_undoAll (s : State) (b : List Word) :
    s.decryptCore b = (undoAll (encryptSchedule s.variant) (s.setV b)).setD 0 := by
  have hstart : ((s.setV b).setD (roundCount s.variant)).uninject (roundCount s.variant / 4)
      = ((s.setV b).uninject (roundCount s.variant / 4)).setD (roundCount s.variant) := rfl
  rw [State.decryptCore, hstart, unrounds_eq_undoAll _ (State.setD_d _ _), undoAll_setD, encryptSchedule_eq,
    undoAll_append]
  rfl

/-- The block that ENCRYPT_CORE makes is the one that doing the schedule leaves. -/
theorem applyAll_encryptSchedule (v : Variant) (ek : List Word) (et : ExpandedTweak) (b : List Word) :
    applyAll (encryptSchedule v) ((State.holding v ek et).setV b)
      = (State.holding v ek et).setV (encryptBlock v ek et b) := by
  rw [applyAll_eq_setV, State.setV_setV, encryptBlock, encryptCore_eq_applyAll]
  rfl

/-- The block that DECRYPT_CORE makes is the one that undoing the schedule leaves. -/
theorem undoAll_encryptSchedule (v : Variant) (ek : List Word) (et : ExpandedTweak) (b : List Word) :
    undoAll (encryptSchedule v) ((State.holding v ek et).setV b)
      = (State.holding v ek et).setV (decryptBlock v ek et b) := by
  rw [undoAll_eq_setV, State.setV_setV, decryptBlock, decryptCore_eq_undoAll]
  rfl

/-! ### The inverse law (rule R123) -/

section InverseLaw

variable {v : Variant} (ek : List Word) (et : ExpandedTweak) {b : List Word} (hb : b.length = v.words)
include hb

theorem decryptBlock_encryptBlock : decryptBlock v ek et (encryptBlock v ek et b) = b := by
  have hundo := undoAll_applyAll (encryptSchedule v) (s := (State.holding v ek et).setV b) hb
  rw [applyAll_encryptSchedule, undoAll_encryptSchedule] at hundo
  exact congrArg State.v hundo

theorem encryptBlock_decryptBlock : encryptBlock v ek et (decryptBlock v ek et b) = b := by
  have hredo := applyAll_undoAll (encryptSchedule v) (s := (State.holding v ek et).setV b) hb
  rw [undoAll_encryptSchedule, applyAll_encryptSchedule] at hredo
  exact congrArg State.v hredo

end InverseLaw

/-! ### The words of a subkey (rule R105) -/

theorem word_eq_getD (et : ExpandedTweak) (k : Nat) : et.word k = [et.t0, et.t1, et.t2].getD (k % 3) 0 := by
  have hcases : k % 3 = 0 ∨ k % 3 = 1 ∨ k % 3 = 2 := by omega
  rcases hcases with h | h | h <;> rw [ExpandedTweak.word, h] <;> rfl

theorem subkey_getD (v : Variant) (ek : List Word) (et : ExpandedTweak) (c : Nat) {i : Nat} (hi : i < v.words) :
    (subkey v ek et c).getD i 0 = ek.getD ((c + i) % (v.words + 1)) 0 + subkeyAddend v.words et c i := by
  simp [subkey, List.getD_eq_getElem?_getD, hi]

/-- The addend of each subkey word, by its place from the end. -/
theorem subkeyAddend_toNat (v : Variant) (et : ExpandedTweak) (c : Nat) {i : Nat} (hi : i < v.words) :
    (subkeyAddend v.words et c i).toNat =
      if i = v.words - 3 then ([et.t0, et.t1, et.t2].getD (c % 3) 0).toNat
      else if i = v.words - 2 then ([et.t0, et.t1, et.t2].getD ((c + 1) % 3) 0).toNat
      else if i = v.words - 1 then c % 2 ^ 64 else 0 := by
  have hN : 4 ≤ v.words := by cases v <;> decide
  rw [subkeyAddend, apply_ite BitVec.toNat, apply_ite BitVec.toNat, apply_ite BitVec.toNat, word_eq_getD, word_eq_getD,
    BitVec.toNat_ofNat]
  exact if_congr (by omega) rfl (if_congr (by omega) rfl (if_congr (by omega) rfl rfl))

/-- Subkey c uses every word of `EK` but the one at `(c + N) mod (N+1)`. -/
theorem subkey_uses_iff (v : Variant) (c : Nat) {k : Nat} (hk : k ≤ v.words) :
    (∃ i, i < v.words ∧ (c + i) % (v.words + 1) = k) ↔ k ≠ (c + v.words) % (v.words + 1) := by
  constructor
  · rintro ⟨i, hi, rfl⟩
    cases v <;> simp only [Variant.words] at * <;> omega
  · intro hne
    refine ⟨(k + (v.words + 1) - c % (v.words + 1)) % (v.words + 1), ?_⟩
    cases v <;> simp only [Variant.words] at * <;> omega

end Sys2Proof.Machine

open Sys2Proof Sys2Proof.Machine

/-- Settles O32: a rotation is undone by the opposite one, a sum by a difference, an exclusive or by itself. -/
theorem unmixInvertsMix : Obligations.UnmixInvertsMix := by
  unfold Obligations.UnmixInvertsMix
  exact ⟨fun e o r hlo hhi => ⟨unmixPair_mixPair e o hlo hhi, mixPair_unmixPair e o hlo hhi⟩,
    fun e o r => ⟨rfl, rfl, BitVec.toNat_add e o, rfl⟩, by decide⟩

/-- Settles O33: both layers map the pairs one by one. -/
theorem pairsMixAlone : Obligations.PairsMixAlone := by
  unfold Obligations.PairsMixAlone
  intro s d j hv hj
  have hrow : j < (rotRow s.variant d).length := by rwa [rotRow_length]
  have hpair : 2 * j + 1 < s.v.length := by omega
  rw [State.mixLayer, State.unmixLayer, State.setV_v, State.setV_v, mixWords_eq_mapPairs, unmixWords_eq_mapPairs]
  exact ⟨mapPairs_getD mixPair hrow hpair, mapPairs_getD unmixPair hrow hpair⟩

/-- Settles O34: by the entries of the three tables. -/
theorem permutationTables : Obligations.PermutationTables := by
  unfold Obligations.PermutationTables
  intro v
  have hparity : ∀ i < v.words, (perm v).getD i 0 % 2 = i % 2 := by cases v <;> decide
  refine ⟨perm_length v, invPerm_length v, by cases v <;> decide, fun i hi => ?_⟩
  obtain ⟨hlt, -, hback, -⟩ := perm_invPerm v i hi
  exact ⟨hlt, hparity i hi, hback⟩

/-- Settles O35: both move words by a table, and the tables are inverse to each other. -/
theorem unpermuteInvertsPermute : Obligations.UnpermuteInvertsPermute := by
  unfold Obligations.UnpermuteInvertsPermute
  refine ⟨fun s hv => ⟨EngineStep.permute.undo_apply hv, EngineStep.permute.apply_undo hv, fun i hi => ?_⟩, ?_, ?_⟩
  · obtain ⟨hlt, -, hback, -⟩ := perm_invPerm s.variant i hi
    rw [State.permute, State.unpermute, State.setV_v, State.setV_v, permuteWords_getD (by simpa using hi),
      permuteWords_getD (by simpa using hlt), permuteWords_getD (by simpa using hi), hback]
    exact ⟨rfl, rfl, rfl⟩
  · intro b0 b1 b2 b3 b4 b5 b6 b7
    rfl
  · intro s hs
    have htables : invPerm s.variant = perm s.variant := by rw [hs]; rfl
    rw [State.unpermute, htables, State.permute]

/-- Settles O36: the addends by their places from the end, and the places used by arithmetic modulo N+1. -/
theorem subkeyWords : Obligations.SubkeyWords := by
  unfold Obligations.SubkeyWords
  intro v ek et c
  refine ⟨subkey_length v ek et c, fun i hi => ?_, fun k hk => subkey_uses_iff v c hk⟩
  rw [subkey_getD v ek et c hi, BitVec.toNat_add, subkeyAddend_toNat v et c hi]

/-- Settles O37: addition and subtraction word by word. -/
theorem uninjectInvertsInject : Obligations.UninjectInvertsInject := by
  unfold Obligations.UninjectInvertsInject
  intro s c hv
  have hsubkey : (s.subkey c).length = s.v.length := EngineStep.subkey_length_eq hv c
  refine ⟨fun i hi => ?_, (EngineStep.inject c).undo_apply hv, (EngineStep.inject c).apply_undo hv⟩
  rw [← hv] at hi
  rw [State.inject, State.uninject, State.setV_v, State.setV_v, addWords_getD hsubkey hi, subWords_getD hsubkey hi,
    BitVec.toNat_add]
  exact ⟨rfl, rfl⟩

/-- Settles O38: a round is a sequence of steps that can be undone. -/
theorem unroundInvertsRound : Obligations.UnroundInvertsRound := by
  unfold Obligations.UnroundInvertsRound
  intro s d hv _
  refine ⟨?_, ?_, fun h => ?_, fun h => ?_, fun h => ?_, fun h => ?_⟩
  · rw [round_eq_applyAll, unround_eq_undoAll, undoAll_applyAll _ hv]
  · rw [round_eq_applyAll, unround_eq_undoAll, applyAll_undoAll _ hv]
  · rw [State.round, if_pos h]
  · rw [State.round, if_neg h]
  · rw [State.unround, if_pos h]
  · rw [State.unround, if_neg h]

/-- Settles O39: four rounds from a cycle boundary are one injection and the cycle's rounds, so the loops do, and undo,
the schedule. -/
theorem loopsFollowTheSchedule : Obligations.LoopsFollowTheSchedule := by
  unfold Obligations.LoopsFollowTheSchedule
  refine ⟨fun s b => ⟨?_, ?_⟩, fun v => by cases v <;> decide⟩
  · rw [encryptCore_eq_applyAll]
    rfl
  · rw [decryptCore_eq_undoAll]
    rfl

/-- Settles O40: the schedule that ENCRYPT does is the one that DECRYPT undoes. -/
theorem decryptInvertsEncrypt : Obligations.DecryptInvertsEncrypt := by
  unfold Obligations.DecryptInvertsEncrypt
  intro v ek et b hb
  exact ⟨decryptBlock_encryptBlock ek et hb, encryptBlock_decryptBlock ek et hb⟩
end

section
/-! Proofs of the family other, the commands: ENCRYPT and DECRYPT in full, and commands one after another. -/

namespace Sys2Proof.Machine

open Sys2Proof.Safety

/-! ### ENCRYPT and DECRYPT (rules R120 and R121) -/

/-- ENCRYPT with `len = 8*N` responds `OK` with the block function's words and leaves `V` and `d` unspecified. -/
theorem exec_encrypt_of_length {s : State} {p : List Byte} (hp : p.length = 8 * s.variant.words) :
    exec (.encrypt p) s = .next (s.unspecifyWorking.respond .ok
      (storeWords (encryptBlock s.variant s.ek s.et (loadWords s.variant.words p)))) := by
  have hwrites : writes (.encrypt p) s = s.unspecifyWorking := if_pos ((blockStatus_ok_iff _ _).2 hp)
  rw [exec_eq_respond, responseOf_encrypt hp, hwrites]

/-- DECRYPT with `len = 8*N` responds `OK` with the inverse block function's words and leaves `V` and `d`
unspecified. -/
theorem exec_decrypt_of_length {s : State} {p : List Byte} (hp : p.length = 8 * s.variant.words) :
    exec (.decrypt p) s = .next (s.unspecifyWorking.respond .ok
      (storeWords (decryptBlock s.variant s.ek s.et (loadWords s.variant.words p)))) := by
  have hwrites : writes (.decrypt p) s = s.unspecifyWorking := if_pos ((blockStatus_ok_iff _ _).2 hp)
  rw [exec_eq_respond, responseOf_decrypt hp, hwrites]

section InverseCommands

variable {s t : State} {p : List Byte} (hp : p.length = 8 * s.variant.words)
  (hv : t.variant = s.variant) (hek : t.ek = s.ek) (het : t.et = s.et)
include hp hv hek het

/-- DECRYPT of what ENCRYPT answers under the same `EK` and `ET` answers ENCRYPT's payload. -/
theorem responseOf_decrypt_encryptBlock :
    responseOf (.decrypt (storeWords (encryptBlock s.variant s.ek s.et (loadWords s.variant.words p)))) t
      = ⟨.ok, p⟩ := by
  have hlen : (encryptBlock s.variant s.ek s.et (loadWords s.variant.words p)).length = s.variant.words :=
    encryptBlock_length _ _ _ _ (loadWords_length _ _)
  have hload := loadWords_storeWords (encryptBlock s.variant s.ek s.et (loadWords s.variant.words p))
  rw [hlen] at hload
  rw [responseOf_decrypt (by rw [storeWords_length, hlen, hv]), hv, hek, het, hload,
    decryptBlock_encryptBlock _ _ (loadWords_length _ _), storeWords_loadWords _ _ hp]

/-- ENCRYPT of what DECRYPT answers under the same `EK` and `ET` answers DECRYPT's payload. -/
theorem responseOf_encrypt_decryptBlock :
    responseOf (.encrypt (storeWords (decryptBlock s.variant s.ek s.et (loadWords s.variant.words p)))) t
      = ⟨.ok, p⟩ := by
  have hlen : (decryptBlock s.variant s.ek s.et (loadWords s.variant.words p)).length = s.variant.words :=
    decryptBlock_length _ _ _ _ (loadWords_length _ _)
  have hload := loadWords_storeWords (decryptBlock s.variant s.ek s.et (loadWords s.variant.words p))
  rw [hlen] at hload
  rw [responseOf_encrypt (by rw [storeWords_length, hlen, hv]), hv, hek, het, hload,
    encryptBlock_decryptBlock _ _ (loadWords_length _ _), storeWords_loadWords _ _ hp]

end InverseCommands

/-! ### One command after another -/

theorem after_of_exec {i : Instr} {s t : State} (h : exec i s = .next t) : after i s = t := by rw [after, h]

@[simp] theorem after_variant (i : Instr) (s : State) : (after i s).variant = s.variant :=
  exec_keeps_variant (exec_eq_after i s)

/-- Two commands, one after the other, leave the writes of both, and responses. -/
theorem after_after (i j : Instr) (s : State) : after j (after i s) =
    ((writes j (writes i s)).respond (responseOf i s).status (responseOf i s).payload).respond
      (responseOf j (after i s)).status (responseOf j (after i s)).payload := by
  rw [after_eq_respond j, after_eq_respond i s, writes_respond]

/-- Two commands in either order leave the same state but for the responses when their writes commute. -/
theorem sameButResponses_of_writes_comm {i j : Instr} {s : State}
    (h : writes j (writes i s) = writes i (writes j s)) :
    sameButResponses (after j (after i s)) (after i (after j s)) := by
  rw [after_after, after_after, h]
  rfl

theorem writes_settweak_ek (tp : Bool) (p : List Byte) (s : State) : (writes (.settweak tp p) s).ek = s.ek :=
  writes_ek s nofun

theorem writes_setkey_et (p : List Byte) (s : State) : (writes (.setkey p) s).et = s.et := writes_et s nofun

/-- The writes of SETKEY and SETTWEAK commute: each has its own register file. -/
theorem writes_setkey_settweak_comm (p q : List Byte) (tp : Bool) (s : State) :
    writes (.settweak tp q) (writes (.setkey p) s) = writes (.setkey p) (writes (.settweak tp q) s) := by
  have hkey (t : State) (ht : t.variant = s.variant) : writes (.setkey p) t =
      if statusOf s.variant (.setkey p) = .ok then t.setEk (expandKey (loadWords s.variant.words p)) else t := by
    rw [writes, okWrites, ht]
  have htweak (t : State) (ht : t.variant = s.variant) : writes (.settweak tp q) t =
      if statusOf s.variant (.settweak tp q) = .ok then t.setEt (expandTweak (tweakOf tp q)) else t := by
    rw [writes, okWrites, ht]
  rw [htweak _ (writes_variant _ s), hkey _ (writes_variant _ s), hkey s rfl, htweak s rfl]
  split <;> split <;> rfl

/-- A command that is not read-only writes the same when it is done again. -/
theorem writes_writes_self {i : Instr} (hi : readOnly i = false) (s : State) : writes i (writes i s) = writes i s := by
  by_cases h : statusOf s.variant i = .ok
  · rw [writes_of_ok (i := i) (s := writes i s) (by rwa [writes_variant]), writes_of_ok h]
    cases i with
    | setkey p => rfl
    | settweak tp p => rfl
    | encrypt p => cases hi
    | decrypt p => cases hi
    | blksize p => cases hi
  · rw [writes_of_raise h, writes_of_raise h]

/-! ### Read-only commands (rules R27 and R49) -/

section ReadOnly

variable {i : Instr} (hi : readOnly i = true) (s : State)
include hi

theorem writes_ek_of_readOnly : (writes i s).ek = s.ek := writes_ek s fun p hp => by rw [hp] at hi; cases hi

theorem writes_et_of_readOnly : (writes i s).et = s.et := writes_et s fun tp p hp => by rw [hp] at hi; cases hi

/-- After a read-only command every command answers as before it. -/
theorem responseOf_after_of_readOnly (j : Instr) : responseOf j (after i s) = responseOf j s := by
  rw [after_eq_respond, responseOf_respond]
  exact responseOf_congr (writes_variant i s) (writes_ek_of_readOnly hi s) (writes_et_of_readOnly hi s) j

omit s in
/-- On a given N a read-only command writes nothing in any state, or in any state leaves the working registers
unspecified. -/
theorem writes_readOnly_cases (v : Variant) : (∀ s : State, s.variant = v → writes i s = s)
    ∨ ∀ s : State, s.variant = v → writes i s = s.unspecifyWorking := by
  by_cases h : statusOf v i = .ok
  · cases i with
    | setkey p => cases hi
    | settweak tp p => cases hi
    | encrypt p => exact .inr fun s hs => writes_of_ok (hs ▸ h)
    | decrypt p => exact .inr fun s hs => writes_of_ok (hs ▸ h)
    | blksize p => exact .inl fun s hs => writes_of_ok (hs ▸ h)
  · exact .inl fun s hs => writes_of_raise (hs ▸ h)

/-- The writes of read-only commands commute. -/
theorem writes_readOnly_comm {j : Instr} (hj : readOnly j = true) :
    writes j (writes i s) = writes i (writes j s) := by
  have hvi : (writes i s).variant = s.variant := writes_variant i s
  have hvj : (writes j s).variant = s.variant := writes_variant j s
  rcases writes_readOnly_cases hi s.variant with hwi | hwi <;>
    rcases writes_readOnly_cases hj s.variant with hwj | hwj <;>
    rw [hwj _ hvi, hwi _ hvj, hwi s rfl, hwj s rfl]

end ReadOnly

/-- The witness that SETKEY and SETTWEAK do not commute with ENCRYPT and DECRYPT: after reset a zero key, and a tweak,
change what both answer to the zero block. -/
theorem setkey_and_settweak_change_blocks :
    responsesTo (.encrypt (List.replicate 32 0)) (after (.setkey (List.replicate 32 0)) (State.resetOf .tf256))
        ≠ responsesTo (.encrypt (List.replicate 32 0)) (State.resetOf .tf256)
      ∧ responsesTo (.decrypt (List.replicate 32 0)) (after (.setkey (List.replicate 32 0)) (State.resetOf .tf256))
        ≠ responsesTo (.decrypt (List.replicate 32 0)) (State.resetOf .tf256)
      ∧ responsesTo (.encrypt (List.replicate 32 0))
          (after (.settweak true (List.replicate 16 1)) (State.resetOf .tf256))
        ≠ responsesTo (.encrypt (List.replicate 32 0)) (State.resetOf .tf256)
      ∧ responsesTo (.decrypt (List.replicate 32 0))
          (after (.settweak true (List.replicate 16 1)) (State.resetOf .tf256))
        ≠ responsesTo (.decrypt (List.replicate 32 0)) (State.resetOf .tf256) := by
  decide +kernel

end Sys2Proof.Machine

open Sys2Proof Sys2Proof.Machine Sys2Proof.Safety

/-- Settles O41: the effect of ENCRYPT touches the working registers, and its response is the block function's. -/
theorem encryptCompletes : Obligations.EncryptCompletes := by
  unfold Obligations.EncryptCompletes
  intro s p hp
  exact ⟨s.unspecifyWorking.v, s.unspecifyWorking.d, exec_encrypt_of_length hp, unspecifyWorking_shape s⟩

/-- Settles O42: the effect of DECRYPT touches the working registers, and its response is the inverse function's. -/
theorem decryptCompletes : Obligations.DecryptCompletes := by
  unfold Obligations.DecryptCompletes
  intro s p hp
  exact ⟨s.unspecifyWorking.v, s.unspecifyWorking.d, exec_decrypt_of_length hp, unspecifyWorking_shape s⟩

/-- Settles O43: the inverse law on the words of the payload, which the bytes of the port carry. -/
theorem commandsInvertEachOther : Obligations.CommandsInvertEachOther := by
  unfold Obligations.CommandsInvertEachOther
  intro s t p hp hv hek het
  refine ⟨⟨_, _, _, exec_encrypt_of_length hp, newResponses_of_append rfl, exec_eq_after _ t, ?_⟩,
    ⟨_, _, _, exec_decrypt_of_length hp, newResponses_of_append rfl, exec_eq_after _ t, ?_⟩⟩
  · rw [newResponses_after, responseOf_decrypt_encryptBlock hp hv hek het]
  · rw [newResponses_after, responseOf_encrypt_decryptBlock hp hv hek het]

/-- Settles O44: SETKEY leaves the expanded key, SETTWEAK keeps it and leaves the expanded tweak, and ENCRYPT reads
both. -/
theorem newKeyIsUsedAtOnce : Obligations.NewKeyIsUsedAtOnce := by
  unfold Obligations.NewKeyIsUsedAtOnce
  intro s a b c k q p hk hq hp ha hb hc
  obtain ⟨hv, hek, het⟩ : b.variant = s.variant ∧ b.ek = expandKey (loadWords s.variant.words k)
      ∧ b.et = expandTweak (some (memRead q 0, memRead q 8)) := by
    obtain rfl := Host.Outcome.next.inj ((exec_setkey_of_length hk).symm.trans ha)
    obtain rfl := Host.Outcome.next.inj ((exec_settweak_of_length _ hq).symm.trans hb)
    exact ⟨rfl, rfl, rfl⟩
  rw [newResponses_of_exec hc, responseOf_encrypt (by rw [hv, hp]), hv, hek, het]

/-- Settles O46: a read-only command leaves N, `EK` and `ET`, on which its response depends; another writes the same
again. -/
theorem readsHaveNoSideEffect : Obligations.ReadsHaveNoSideEffect := by
  unfold Obligations.ReadsHaveNoSideEffect
  refine ⟨fun i s hi => ?_, fun i s hi => ?_⟩
  · refine ⟨_, _, responseOf i s, exec_eq_after i s, exec_eq_after i _, ?_, ?_, ?_, newResponses_after i s, ?_⟩
    · rw [after_eq_respond, State.respond_ek, writes_ek_of_readOnly hi]
    · rw [after_eq_respond, State.respond_et, writes_et_of_readOnly hi]
    · rw [after_eq_respond, State.respond_variant, writes_variant]
    · rw [newResponses_after, responseOf_after_of_readOnly hi]
  · refine ⟨_, _, exec_eq_after i s, exec_eq_after i _, ?_⟩
    rw [after_after, writes_writes_self hi, after_eq_respond]
    exact ⟨rfl, rfl, rfl⟩

/-- Settles O47: the writes of the commands commute, and the responses of read-only commands do not depend on the order;
a key and a tweak that change the ciphertext are in `setkey_and_settweak_change_blocks`. -/
theorem readOnlyCommandsCommute : Obligations.ReadOnlyCommandsCommute := by
  unfold Obligations.ReadOnlyCommandsCommute
  refine ⟨fun i j s hi hj => ?_, fun p q tp s => ?_, ?_⟩
  · refine ⟨_, _, _, _, responseOf i s, responseOf j s, exec_eq_after i s, exec_eq_after j _, exec_eq_after j s,
      exec_eq_after i _, newResponses_after i s, ?_, newResponses_after j s, ?_,
      sameButResponses_of_writes_comm (writes_readOnly_comm hi s hj)⟩
    · rw [newResponses_after, responseOf_after_of_readOnly hi]
    · rw [newResponses_after, responseOf_after_of_readOnly hj]
  · exact ⟨_, _, _, _, exec_eq_after _ s, exec_eq_after _ _, exec_eq_after _ s, exec_eq_after _ _,
      sameButResponses_of_writes_comm (writes_setkey_settweak_comm p q tp s)⟩
  · exact ⟨State.resetOf .tf256, List.replicate 32 0, List.replicate 16 1, List.replicate 32 0,
      setkey_and_settweak_change_blocks⟩

/-- Settles O30: SETKEY's writes and SETTWEAK's commute, and each leaves the other's register file. -/
theorem keyAndTweakAreIndependent : Obligations.KeyAndTweakAreIndependent := by
  unfold Obligations.KeyAndTweakAreIndependent
  intro s a b c e p q tp ha hb hc he
  obtain rfl := Host.Outcome.next.inj ((exec_eq_after _ s).symm.trans ha)
  obtain rfl := Host.Outcome.next.inj ((exec_eq_after _ _).symm.trans hb)
  obtain rfl := Host.Outcome.next.inj ((exec_eq_after _ s).symm.trans hc)
  obtain rfl := Host.Outcome.next.inj ((exec_eq_after _ _).symm.trans he)
  have hcomm := writes_setkey_settweak_comm p q tp s
  have hbek : (after (.settweak tp q) (after (.setkey p) s)).ek = (writes (.setkey p) s).ek := by
    rw [after_after, State.respond_ek, State.respond_ek, writes_settweak_ek]
  have hbet : (after (.settweak tp q) (after (.setkey p) s)).et = (writes (.settweak tp q) s).et := by
    rw [after_after, State.respond_et, State.respond_et, hcomm, writes_setkey_et]
  have heek : (after (.setkey p) (after (.settweak tp q) s)).ek = (writes (.setkey p) s).ek := by
    rw [after_after, State.respond_ek, State.respond_ek, ← hcomm, writes_settweak_ek]
  have heet : (after (.setkey p) (after (.settweak tp q) s)).et = (writes (.settweak tp q) s).et := by
    rw [after_after, State.respond_et, State.respond_et, writes_setkey_et]
  rw [hbek, hbet, heek, heet, after_variant, after_variant, after_variant, after_variant]
  refine ⟨rfl, rfl, rfl, fun hok => ?_, fun hok => ?_, fun hraise => ⟨?_, ?_⟩, fun hraise => ⟨?_, ?_⟩⟩
  · rw [writes_of_ok hok]
    rfl
  · rw [writes_of_ok hok]
    rfl
  · rw [writes_of_raise hraise]
  · rw [after_eq_respond, State.respond_et, writes_setkey_et]
  · rw [writes_of_raise hraise]
  · rw [after_eq_respond, State.respond_ek, writes_settweak_ek]
end

section
/-! Proofs of the family other, the facade: what the encoder presents is answered, construction, several engines side by
side, and the properties that the source states. -/

namespace Sys2Proof.Machine

open Sys2Proof.Safety

/-! ### A step on what the encoder presents -/

/-- The status with which a command fails its length check (rules R161 and R162). -/
def failureOf : Opcode → Status
  | .setkey => .invalidKeySize
  | .settweak => .precondition
  | .encrypt => .precondition
  | .decrypt => .precondition
  | .blksize => .precondition

/-- The status of a command is a test of its length against the one it wants. -/
theorem statusOf_eq_ite (v : Variant) (i : Instr) :
    statusOf v i = if i.payload.length = inputBytes v i then .ok else failureOf i.opcode := by
  cases i with
  | setkey p => rfl
  | settweak tp p => exact statusOf_of_ne_setkey v nofun
  | encrypt p => rfl
  | decrypt p => rfl
  | blksize p => rfl

/-- The size that a command wants does not depend on its payload. -/
theorem inputBytes_command (v : Variant) (i : Instr) (p : List Byte) :
    inputBytes v (i.opcode.command i.tp p) = inputBytes v i := by
  cases i with
  | settweak tp q => cases tp <;> rfl
  | setkey q => rfl
  | encrypt q => rfl
  | decrypt q => rfl
  | blksize q => rfl

/-- What the encoder presents has the status of the command, also where no header can spell it (rule R63). -/
theorem statusOf_spelled (v : Variant) (i : Instr) :
    statusOf v (i.opcode.command i.tp (spelled i.payload)) = statusOf v i := by
  have hwanted : inputBytes v i ≤ 128 := inputBytes_le v i
  have hlen : (spelled i.payload).length = inputBytes v i ↔ i.payload.length = inputBytes v i := by
    rw [spelled, List.length_take]
    omega
  rw [statusOf_eq_ite, statusOf_eq_ite, command_payload, inputBytes_command, opcode_command]
  exact if_congr hlen rfl rfl

section Encode

variable {s : State} {i : Instr} {rest : List PortEvent} (hport : s.port = encode i ++ rest)
include hport

/-- A step on what the encoder presents carries out the command, where a header can spell it. -/
theorem step_of_encode (hi : i.payload.length ≤ 255) : step s = exec i (s.setPort rest) := by
  have hf : fetch s.port = .command i rest := by rw [hport, fetch_encode_of_wellFormed ((wellFormed_iff i).2 hi)]
  exact step_of_fetch hf

/-- A step on what the encoder presents raises the command's status where that is not `OK`, whatever the length. -/
theorem step_of_encode_raises (hraise : statusOf s.variant i ≠ .ok) :
    step s = .next ((s.setPort rest).raise (statusOf s.variant i)) := by
  have hf : fetch s.port = .command (i.opcode.command i.tp (spelled i.payload)) rest := by rw [hport, fetch_encode]
  rw [← statusOf_spelled] at hraise ⊢
  exact (step_of_fetch hf).trans (exec_of_raise hraise)

end Encode

/-! ### Construction (rules R71 and R142) -/

/-- The two words of a stored tweak, read again. -/
theorem memRead_storeWords_pair (t0 t1 : Word) :
    memRead (storeWords [t0, t1]) 0 = t0 ∧ memRead (storeWords [t0, t1]) 8 = t1 := by
  have hload : [memRead (storeWords [t0, t1]) 0, memRead (storeWords [t0, t1]) 8] = [t0, t1] :=
    loadWords_storeWords [t0, t1]
  simpa using hload

/-- The SETTWEAK of a tweak, given or absent, leaves its expansion in `ET` and responds `OK`. -/
theorem exec_settweakCommand (tweak : Option (Word × Word)) (s : State) :
    exec (settweakCommand tweak) s = .next ((s.setEt (expandTweak tweak)).respond .ok []) := by
  cases tweak with
  | none => exact exec_settweak_nil s
  | some tweak =>
    obtain ⟨t0, t1⟩ := tweak
    obtain ⟨h0, h1⟩ := memRead_storeWords_pair t0 t1
    have hexec := exec_settweak_of_length s (p := storeWords [t0, t1]) (storeWords_length _)
    rw [h0, h1] at hexec
    exact hexec

/-- SETKEY with `len = 8*N`, by the named operations. -/
theorem exec_setkey_eq_respond {s : State} {p : List Byte} (hp : p.length = 8 * s.variant.words) :
    exec (.setkey p) s = .next ((s.setEk (expandKey (loadWords s.variant.words p))).respond .ok []) :=
  exec_setkey_of_length hp

/-- Construction runs SETKEY from the reset state of the selected variant, and SETTWEAK after it. -/
theorem newInstance_of_exec {key : List Byte} {tweak : Option (Word × Word)} {v : Variant} {a t : State}
    (hselect : selectVariant key.length = some v) (hkey : exec (.setkey key) (State.resetOf v) = .next a)
    (htweak : exec (settweakCommand tweak) a = .next t) : newInstance key tweak = some (.next t) := by
  have hsetkey : execSetkey key (State.resetOf v) = .next a := hkey
  rw [newInstance, hselect]
  exact congrArg some ((congrArg (andThen · _) hsetkey).trans htweak)

theorem run_succ {s t : State} (h : step s = .next t) (k : Nat) :
    Sys2Proof.core.run (k + 1) s = Sys2Proof.core.run k t := by
  have hcore : Sys2Proof.core.step s = .next t := h
  simp only [Host.Core.run, hcore]

/-- A step on a reset presented at the port. -/
theorem step_of_reset {s : State} {rest : List PortEvent} (hport : s.port = .reset :: rest) :
    step s = .next (s.setPort rest).resetEvent :=
  step_of_fetch (f := .reset rest) (by rw [hport, fetch])

/-- The state after RESET and a SETKEY of the right length. -/
def rekeyed (s : State) (key : List Byte) (rest : List PortEvent) : State :=
  ((s.resetEvent.setPort rest).setEk (expandKey (loadWords s.variant.words key))).respond .ok []

section NewLine

variable {s : State} {key : List Byte} {rest : List PortEvent}
  (hport : s.port = .reset :: (encode (.setkey key) ++ rest))
include hport

/-- RESET and a SETKEY of the right length take two steps. -/
theorem run_reset_setkey (hkey : key.length = 8 * s.variant.words) (k : Nat) :
    Sys2Proof.core.run (k + 2) s = Sys2Proof.core.run k (rekeyed s key rest) := by
  have hN : s.variant.words ≤ 16 := by cases s.variant <;> decide
  have hsetkey : step (s.setPort (encode (.setkey key) ++ rest)).resetEvent = .next (rekeyed s key rest) :=
    (step_of_encode (i := .setkey key) rfl (by rw [Instr.payload]; omega)).trans (exec_setkey_eq_respond hkey)
  rw [run_succ (step_of_reset hport), run_succ hsetkey]

/-- RESET and a SETKEY of another length take two steps and end in the reset state. -/
theorem run_reset_setkey_raises (hkey : key.length ≠ 8 * s.variant.words) (k : Nat) :
    Sys2Proof.core.run (k + 2) s = Sys2Proof.core.run k ((s.resetEvent.setPort rest).raise .invalidKeySize) := by
  have hstatus : statusOf s.variant (.setkey key) = .invalidKeySize :=
    (statusOf_eq_invalidKeySize_iff _ _).2 ⟨key, rfl, hkey⟩
  have hsetkey := step_of_encode_raises (s := (s.setPort (encode (.setkey key) ++ rest)).resetEvent) (i := .setkey key)
    (rest := rest) rfl
  rw [State.resetEvent_variant, State.setPort_variant, hstatus] at hsetkey
  rw [run_succ (step_of_reset hport), run_succ (hsetkey nofun)]
  rfl

end NewLine

/-- A `NEW` with a key of the right length and a tweak presents SETTWEAK after RESET and SETKEY. -/
theorem newEvents_some {v : Variant} {key : List Byte} (hkey : key.length = 8 * v.words) (tweak : Word × Word) :
    newEvents v key (some tweak)
      = .reset :: (encode (.setkey key) ++ encode (settweakCommand (some tweak))) := by
  rw [newEvents, if_pos ⟨hkey, rfl⟩]

/-- A `NEW` without a tweak presents RESET and SETKEY. -/
theorem newEvents_none (v : Variant) (key : List Byte) : newEvents v key none = .reset :: encode (.setkey key) := by
  rw [newEvents, if_neg (by simp), List.append_nil]

/-- A `NEW` with a key of another length presents RESET and SETKEY. -/
theorem newEvents_of_length_ne {v : Variant} {key : List Byte} (hkey : key.length ≠ 8 * v.words)
    (tweak : Option (Word × Word)) : newEvents v key tweak = .reset :: encode (.setkey key) := by
  rw [newEvents, if_neg fun h => hkey h.1, List.append_nil]

/-! ### Several engines (rules R32 and R172) -/

/-- A step of a platform that answers one: the engine at that place stepped, or there is none and nothing changed. -/
theorem stepAt_cases {p q : Platform} {k : Nat} (h : p.stepAt k = .next q) :
    (p[k]? = none ∧ q = p) ∨ ∃ s t, p[k]? = some s ∧ step s = .next t ∧ q = p.set k t := by
  unfold Platform.stepAt at h
  cases hk : p[k]? with
  | none =>
    rw [hk] at h
    exact .inl ⟨rfl, (Host.Outcome.next.inj h).symm⟩
  | some s =>
    rw [hk] at h
    cases hs : step s with
    | next t =>
      simp only [hs] at h
      exact .inr ⟨s, t, rfl, hs, (Host.Outcome.next.inj h).symm⟩
    | fault r => simp [hs] at h
    | refused r => simp [hs] at h

theorem stepAt_of_none {p : Platform} {k : Nat} (h : p[k]? = none) : p.stepAt k = .next p := by
  rw [Platform.stepAt, h]

theorem stepAt_of_some {p : Platform} {k : Nat} {s t : State} (h : p[k]? = some s) (hs : step s = .next t) :
    p.stepAt k = .next (p.set k t) := by
  simp only [Platform.stepAt, h, hs]

/-- A step of a platform at one place leaves the others. -/
theorem getElem?_of_stepAt {p q : Platform} {j k : Nat} (hjk : j ≠ k) (h : p.stepAt j = .next q) : q[k]? = p[k]? := by
  rcases stepAt_cases h with ⟨-, rfl⟩ | ⟨s, t, -, -, rfl⟩
  · rfl
  · exact List.getElem?_set_ne hjk

/-! ### The properties of rule R148 -/

/-- Keys of 33, 63 and 100 bytes are no variant's keys. -/
theorem ne_keyBytes_of_mem {n : Nat} (hn : n ∈ [33, 63, 100]) (v : Variant) : n ≠ 8 * v.words := by
  have hnone : ∀ m ∈ [33, 63, 100], m ≠ 8 * v.words := by cases v <;> decide
  exact hnone n hn

/-- The last word of an expanded key of N words (rule R83). -/
theorem expandKey_loadWords_getD (n : Nat) (p : List Byte) :
    (expandKey (loadWords n p)).getD n 0 = keyScheduleConst ^^^ xorAll (loadWords n p) := by
  have hlast := expandKey_getD_length (loadWords n p)
  rwa [loadWords_length, parityWord_eq] at hlast

theorem keyScheduleParity_holds (v : Variant) : Safety.keyScheduleParity v := by
  intro s t p hv hp h
  subst hv
  obtain rfl := Host.Outcome.next.inj ((exec_setkey_of_length hp).symm.trans h)
  exact expandKey_loadWords_getD _ p

theorem tweakScheduleParity_holds (v : Variant) : Safety.tweakScheduleParity v := by
  refine ⟨fun s t p _ hp h => ?_, fun s t _ h => ?_⟩
  · obtain rfl := Host.Outcome.next.inj ((exec_settweak_of_length s hp).symm.trans h)
    rfl
  · obtain rfl := Host.Outcome.next.inj ((exec_settweak_nil s).symm.trans h)
    rfl

theorem determinism_holds (v : Variant) : determinism v := by
  intro s t p hs ht hek het
  have hresponse (i : Instr) : responseOf i s = responseOf i t := responseOf_congr (hs.trans ht.symm) hek het i
  simp only [responsesTo_eq, hresponse, and_self]

theorem sizeRejection_holds (v : Variant) : sizeRejection v := by
  intro s p hv hp
  exact exec_setkey_of_length_ne (ne_keyBytes_of_mem hp s.variant)

/-- The ciphertext of Threefish-256 for zero key, tweak and block. -/
theorem encryptBlock_zeros :
    storeWords (encryptBlock .tf256 (expandKey (loadWords 4 (List.replicate 32 0))) ⟨0, 0, 0⟩
        (loadWords 4 (List.replicate 32 0))) =
      [0x84, 0xDA, 0x2A, 0x1F, 0x8B, 0xEA, 0xEE, 0x94, 0x70, 0x66, 0xAE, 0x3E, 0x31, 0x03, 0xF1, 0xAD,
        0x53, 0x6D, 0xB1, 0xF4, 0xA1, 0x19, 0x24, 0x95, 0x11, 0x6B, 0x9F, 0x3C, 0xE6, 0x13, 0x3F, 0xD8] := by
  decide +kernel

/-- After a zero key and no tweak a Threefish-256 engine answers the zero block with that ciphertext. -/
theorem knownAnswer_holds : knownAnswer := by
  unfold knownAnswer
  intro s hv
  have hkey : (List.replicate 32 (0 : Byte)).length = 8 * s.variant.words := by rw [hv]; rfl
  obtain ⟨hN, hek, het⟩ :
      (after (.settweak false []) (after (.setkey (List.replicate 32 0)) s)).variant = .tf256
        ∧ (after (.settweak false []) (after (.setkey (List.replicate 32 0)) s)).ek
          = expandKey (loadWords 4 (List.replicate 32 0))
        ∧ (after (.settweak false []) (after (.setkey (List.replicate 32 0)) s)).et = ⟨0, 0, 0⟩ := by
    rw [after_of_exec (exec_setkey_of_length hkey), after_of_exec (exec_settweak_nil _)]
    exact ⟨hv, by dsimp only; rw [hv]; rfl, rfl⟩
  rw [responsesTo_eq, responseOf_encrypt (by rw [hN]; rfl), hN, hek, het]
  exact congrArg (fun out => [Response.mk .ok out]) encryptBlock_zeros

end Sys2Proof.Machine

open Sys2Proof Sys2Proof.Machine Sys2Proof.Safety

/-- Settles O1: by decoding the nine words. -/
theorem sampleHeadersDecode : Obligations.SampleHeadersDecode := by
  unfold Obligations.SampleHeadersDecode
  decide

/-- Settles O52: the three headers are those of a SETKEY with lengths that are no variant's key size. -/
theorem oddKeySizesAreRejected : Obligations.OddKeySizesAreRejected := by
  unfold Obligations.OddKeySizesAreRejected
  refine ⟨fun s h p rest hmem hport => ?_, rfl, rfl, rfl⟩
  obtain ⟨hheader, hlen, hodd⟩ : decodeHeader h = .ok .setkey ∧ p.length = lenField h ∧ p.length ∈ [33, 63, 100] := by
    simp only [List.mem_cons, Prod.mk.injEq, List.not_mem_nil, or_false] at hmem
    rcases hmem with ⟨rfl, hp⟩ | ⟨rfl, hp⟩ | ⟨rfl, hp⟩ <;> rw [hp] <;> decide
  have hd : decode h p = .ok (.setkey p) := by rw [decode, hheader]; rfl
  have hstep := step_of_presentRaw_command hlen hport hd
  rw [exec_setkey_of_length_ne (ne_keyBytes_of_mem hodd _)] at hstep
  exact ⟨hstep, rfl⟩

/-- Settles O53: construction is SETKEY and SETTWEAK from the reset state of the variant that the key selects. -/
theorem constructionSetsKeyAndTweak : Obligations.ConstructionSetsKeyAndTweak := by
  unfold Obligations.ConstructionSetsKeyAndTweak
  intro key tweak
  refine ⟨fun hnone => by rw [newInstance, hnone], fun v hselect => ?_⟩
  have hkey : key.length = 8 * (State.resetOf v).variant.words := (selectVariant_eq_some_iff _ v).1 hselect
  have hsetkey := exec_setkey_eq_respond hkey
  have hsettweak := exec_settweakCommand tweak
    (((State.resetOf v).setEk (expandKey (loadWords v.words key))).respond .ok [])
  exact ⟨_, _, hsetkey, rfl, rfl, rfl, hsettweak, newInstance_of_exec hselect hsetkey hsettweak, rfl, rfl, rfl, rfl⟩

/-- Settles O54: RESET, then a SETKEY carried out or raised, then the SETTWEAK of a tweak where one is presented. -/
theorem newLineRebuildsTheInstance : Obligations.NewLineRebuildsTheInstance := by
  unfold Obligations.NewLineRebuildsTheInstance
  refine ⟨?_, ?_, ?_, fun _ _ _ => ⟨rfl, rfl⟩, fun _ _ => rfl⟩
  · intro s key t0 t1 rest hkey hport
    rw [AsmLine.events, newEvents_some hkey, List.cons_append, List.append_assoc] at hport
    have hfits : (settweakCommand (some (t0, t1))).payload.length ≤ 255 := by
      simp [settweakCommand, Instr.payload, tweakPayload]
    have hsettweak : step (rekeyed s key (encode (settweakCommand (some (t0, t1))) ++ rest)) = _ :=
      (step_of_encode rfl hfits).trans (exec_settweakCommand _ _)
    refine ⟨_, (run_reset_setkey hport hkey 1).trans (run_succ hsettweak 0), rfl, rfl, rfl, rfl, ?_⟩
    exact List.append_assoc _ _ _
  · intro s key rest hkey hport
    rw [AsmLine.events, newEvents_none, List.cons_append] at hport
    exact ⟨_, run_reset_setkey hport hkey 0, rfl, rfl, rfl, rfl, rfl⟩
  · intro s key tweak rest hkey hport
    rw [AsmLine.events, newEvents_of_length_ne hkey, List.cons_append] at hport
    exact ⟨_, run_reset_setkey_raises hport hkey 0, rfl, rfl, rfl, rfl, rfl⟩

/-- Settles O55: a step writes its own place of the list, and writes at two places commute. -/
theorem instancesShareNothing : Obligations.InstancesShareNothing := by
  unfold Obligations.InstancesShareNothing
  intro p q r j k hjk hj hk
  have hother : q[k]? = p[k]? := getElem?_of_stepAt hjk hj
  refine ⟨hother, ?_⟩
  rcases stepAt_cases hk with ⟨hnone, rfl⟩ | ⟨s, t, hs, hstep, rfl⟩
  · exact ⟨p, stepAt_of_none (hother ▸ hnone), hj⟩
  · refine ⟨p.set k t, stepAt_of_some (hother ▸ hs) hstep, ?_⟩
    have hleft : (p.set k t)[j]? = p[j]? := List.getElem?_set_ne hjk.symm
    rcases stepAt_cases hj with ⟨hnone, rfl⟩ | ⟨s', t', hs', hstep', rfl⟩
    · exact stepAt_of_none (hleft.trans hnone)
    · rw [stepAt_of_some (hleft.trans hs') hstep', List.set_comm _ _ hjk]

/-- Settles O57: 255 bytes are not the length that any command wants, and neither is the length that they stand for. -/
theorem unspellableCommandsFail : Obligations.UnspellableCommandsFail := by
  unfold Obligations.UnspellableCommandsFail
  intro i s rest hlong hport
  have hlen : i.payload.length ≠ inputBytes s.variant i := by
    have hwanted : inputBytes s.variant i ≤ 128 := inputBytes_le s.variant i
    omega
  have hraise : statusOf s.variant i ≠ .ok := fun hok => hlen ((statusOf_ok_iff _ i).1 hok)
  refine ⟨by rw [lenField_headerOf, spelled_length_of_lt hlong], ?_, ?_, step_of_encode_raises hport hraise⟩
  · rintro ⟨p, rfl⟩
    exact (statusOf_eq_invalidKeySize_iff _ _).2 ⟨p, rfl, hlen⟩
  · intro hother
    exact (statusOf_eq_precondition_iff _ i).2 ⟨hother, hlen⟩

/-- Settles O58: the six properties, each from the law of the commands it speaks of. -/
theorem propertiesTheSourceStates : Obligations.PropertiesTheSourceStates := by
  unfold Obligations.PropertiesTheSourceStates
  exact ⟨fun v => ⟨fun ek et _ hb => ⟨decryptBlock_encryptBlock ek et hb, encryptBlock_decryptBlock ek et hb⟩,
    keyScheduleParity_holds v, tweakScheduleParity_holds v, determinism_holds v, sizeRejection_holds v⟩,
    knownAnswer_holds⟩
end
